-- ==== Sys2Proof/Word.lean ====
section
/-! DEFINITION. The value types: bytes and byte strings (00_scope R7), the 32-bit registers, the opaque key
handle (10_state R21) and the names of the two units (R1). -/

namespace Sys2Proof

/-- A byte, 0 to 255; bit 0 is the least significant (00_scope R7). -/
abbrev Byte := BitVec 8

/-- A byte string: index 0 is the byte first on the wire and first in time (00_scope R7). -/
abbrev Bytes := List Byte

/-- A 32-bit register of the register view (10_state R15). -/
abbrev Word := BitVec 32

/-- The two units: the Frame Encoder and the Frame Decoder (00_scope R1). -/
inductive UnitId where
  | enc
  | dec
deriving DecidableEq, Repr

/-- The opaque key handle, with its one distinguished value `invalid` (10_state R21; D32). DESIGN CHOICE, log 14:
a handle is a number that only the adapter interprets. -/
inductive Key where
  | invalid
  | handle (id : Nat)
deriving DecidableEq, Repr

end Sys2Proof
end

