-- ==== Sys2Proof/Config.lean ====
section
/-! DEFINITION. The implementation parameters of 00_scope R6 and 10_state R29: what the spec leaves open is a field of
`Params`, and the machine runs under `Config.params`, whose fields are constants with no body. -/

namespace Sys2Proof

/-- A capacity in bytes; `none` is infinity (00_scope R6). -/
abbrev Capacity := Option Nat

/-- `n` bytes fit the capacity. Nothing at all always fits. -/
def Capacity.allows (cap : Capacity) : Nat → Bool
  | 0 => true
  | n + 1 => match cap with
    | none => true
    | some c => decide (n + 1 ≤ c)

/-- The parameters of one instance that are not state of it (10_state R29), and the values the spec leaves unspecified. -/
structure Params where
  /-- `PENDING_CAP`, the capacity of the decoder's accumulator (20_memory R41; D15). -/
  pendingCap : Capacity
  /-- `MAX_CHUNK`, the largest chunk a command may carry (00_scope R6; D34). -/
  maxChunk : Capacity
  /-- `aead.encrypt(plaintext, key, nonce, aad, tagLength)`; `none` is `CipherError` (41_aead_adapter R68). -/
  encrypt : Bytes → Key → Bytes → Bytes → Nat → Option Bytes
  /-- `aead.decrypt(ciphertext_and_tag, key, nonce, aad, tagLength)`; `none` is `AuthenticationError` (R68). -/
  decrypt : Bytes → Key → Bytes → Bytes → Nat → Option Bytes
  /-- Byte `i` of the `k`-th draw the random-number port answers, under no law (41_aead_adapter R73; D17). -/
  rng : Nat → Nat → Byte
  /-- Byte `i` of the unit's `k`-th unspecified byte string (93_implementation_defined U14): a free value, log 6. -/
  free : UnitId → Nat → Nat → Byte

/-- Log 8: uninterpreted, so that a claim holds for every capacity. -/
opaque Config.pendingCap : Capacity

/-- Log 9: uninterpreted. -/
opaque Config.maxChunk : Capacity

/-- Log 4: uninterpreted; "a model takes it as an argument" (00_scope R6). -/
opaque Config.encrypt : Bytes → Key → Bytes → Bytes → Nat → Option Bytes

/-- Log 4: uninterpreted. -/
opaque Config.decrypt : Bytes → Key → Bytes → Bytes → Nat → Option Bytes

/-- Log 5: uninterpreted. -/
opaque Config.rng : Nat → Nat → Byte

/-- Log 6: the free value behind the unspecified nonces, uninterpreted. -/
opaque Config.free : UnitId → Nat → Nat → Byte

/-- The parameters the machine of `step` runs under. -/
def Config.params : Params where
  pendingCap := Config.pendingCap
  maxChunk := Config.maxChunk
  encrypt := Config.encrypt
  decrypt := Config.decrypt
  rng := Config.rng
  free := Config.free

/-- `LMAX`, the largest frame length the length field can carry (00_scope R6). -/
def lmax : Nat := 2 ^ 32 - 1

end Sys2Proof
end

