-- ==== Sys2Proof/Machine/Bytes.lean ====
section
/-! DEFINITION. The byte utilities that are pure functions (40_byte_utilities R60 to R62): slices and the big-endian
length field. `CAT` is `++`. -/

namespace Sys2Proof.Machine

/-- `b[i:j)`, the bytes at indices `i` to `j - 1` (00_scope R7). -/
def slice (b : Bytes) (i j : Nat) : Bytes :=
  (b.take j).drop i

/-- `BE32.ENC(n)` (40_byte_utilities R60), applied only to `n ≤ LMAX`. -/
def be32Enc (n : Nat) : Bytes :=
  [BitVec.ofNat 8 (n / 2 ^ 24 % 256), BitVec.ofNat 8 (n / 2 ^ 16 % 256), BitVec.ofNat 8 (n / 2 ^ 8 % 256),
    BitVec.ofNat 8 (n % 256)]

/-- `BE32.DEC(b)` (40_byte_utilities R61), unsigned. It is applied to four bytes only; DESIGN CHOICE, log 19: of any
other string it is 0, and no rule's outcome depends on that. -/
def be32Dec : Bytes → Nat
  | [a, b, c, d] => a.toNat * 2 ^ 24 + b.toNat * 2 ^ 16 + c.toNat * 2 ^ 8 + d.toNat
  | _ => 0

end Sys2Proof.Machine
end

