-- ==== Sys2Proof/Syntax.lean ====
section
/-! DEFINITION. The seven commands of opcode_table.json (30_encoding R50), with what their transaction carries. -/

namespace Sys2Proof

/-- A host command. `END` and `CLOSE` have no operand: a payload on them is ignored (30_encoding R51). -/
inductive Instr where
  /-- `ENC.CONFIG(k, payload)` (44_config R102). -/
  | encConfig (key : Key) (payload : Bytes)
  /-- `DEC.CONFIG(k, payload)` (44_config R103). -/
  | decConfig (key : Key) (payload : Bytes)
  /-- `ENC.ENCODE(chunk)` (42_frame_encoder R78). -/
  | encEncode (chunk : Bytes)
  /-- `DEC.DECODE(chunk)` (43_frame_decoder R87). -/
  | decDecode (chunk : Bytes)
  /-- `DEC.END()` (44_config R104). -/
  | decEnd
  /-- `ENC.CLOSE()` (44_config R105). -/
  | encClose
  /-- `DEC.CLOSE()` (44_config R106). -/
  | decClose
deriving DecidableEq, Repr

/-- The unit on whose command port the command is given (30_encoding R50: the port selects the unit, no bit does). -/
def Instr.unit : Instr → UnitId
  | .encConfig _ _ => .enc
  | .decConfig _ _ => .dec
  | .encEncode _ => .enc
  | .decDecode _ => .dec
  | .decEnd => .dec
  | .encClose => .enc
  | .decClose => .dec

end Sys2Proof
end

