-- ==== Sys2Proof/Decode.lean ====
section
/-! DEFINITION. Command codes (30_encoding R50, R51; opcode_table.json): the decoder of a command transaction, total,
rejecting by name, and the encoder. -/

namespace Sys2Proof

/-- One transaction of a command port (00_scope R8): an 8-bit code, a payload with its length, and the key handle
that travels beside the payload of `CONFIG` (30_encoding R53; `invalid` when there is none). -/
structure Command where
  code : Byte
  payload : Bytes
  key : Key
deriving DecidableEq, Repr

/-- Why a transaction is no command of the unit. -/
inductive DecodeError where
  /-- The code is not in the unit's row of 30_encoding R50; the unit answers `E_REJECTED` (44_config R108). -/
  | unknownCode (code : Byte)
  /-- No byte at all, so not even a code; a command port never carries this. -/
  | noCode
deriving DecidableEq, Repr

/-- What a transaction on the unit's port asks for: all 8 bits of the code are decoded (30_encoding R50). -/
def decode (u : UnitId) (c : Command) : Except DecodeError Instr :=
  match u, c.code.toNat with
  | .enc, 1 => .ok (.encConfig c.key c.payload)
  | .enc, 2 => .ok (.encEncode c.payload)
  | .enc, 5 => .ok .encClose
  | .dec, 1 => .ok (.decConfig c.key c.payload)
  | .dec, 3 => .ok (.decDecode c.payload)
  | .dec, 4 => .ok .decEnd
  | .dec, 5 => .ok .decClose
  | _, _ => .error (.unknownCode c.code)

/-- A command written as its code byte followed by its payload bytes, the key handle beside them
(30_encoding R51; the notation of 95_test_vectors). -/
def decodeBytes (u : UnitId) (key : Key) : Bytes → Except DecodeError Instr
  | [] => .error .noCode
  | code :: payload => decode u ⟨code, payload, key⟩

/-- The transaction of a command, from the table of 30_encoding R50; only `CONFIG` carries a key handle. -/
def encode : Instr → Command
  | .encConfig key payload => ⟨0x01#8, payload, key⟩
  | .decConfig key payload => ⟨0x01#8, payload, key⟩
  | .encEncode chunk => ⟨0x02#8, chunk, .invalid⟩
  | .decDecode chunk => ⟨0x03#8, chunk, .invalid⟩
  | .decEnd => ⟨0x04#8, [], .invalid⟩
  | .encClose => ⟨0x05#8, [], .invalid⟩
  | .decClose => ⟨0x05#8, [], .invalid⟩

/-- The bytes of a command whose bits are `w`, the first byte its least significant 8 bits. -/
def tableBytes (nbits w : Nat) : Bytes :=
  (List.range (nbits / 8)).map fun k => BitVec.ofNat 8 (w / 2 ^ (8 * k))

/-- DESIGN CHOICE, log 15: the port on which bits given without one are read: ENC's if they are a command there,
else DEC's (no bit of a code names its unit, 30_encoding R50). -/
def tableUnit (bytes : Bytes) : UnitId :=
  match decodeBytes .enc .invalid bytes with
  | .ok _ => .enc
  | .error _ => .dec

/-- The instruction the decoder reads from `nbits` bits `w`, with no key handle beside them. -/
def decodeTableWord (nbits w : Nat) : Option Instr :=
  (decodeBytes (tableUnit (tableBytes nbits w)) .invalid (tableBytes nbits w)).toOption

end Sys2Proof
end

