-- ==== Sys2Proof/Machine/State.lean ====
section
/-! DEFINITION. The whole state: the two state records of 10_state R11 and R13, the transaction ports of 00_scope R8,
the agents' moves to come, and what a step can end in. Plain data throughout. -/

namespace Sys2Proof.Machine

/-- The phases ENC can hold (10_state R14). -/
inductive EncPhase where
  | off | ready | cipher | halted
deriving DecidableEq, Repr

/-- The phases DEC can hold (10_state R14). -/
inductive DecPhase where
  | off | ready | scan | cipher | halted | ended
deriving DecidableEq, Repr

/-- The latched fault codes (10_state R25). -/
inductive FaultCode where
  | none | config | auth | framing | trunc | overflow
deriving DecidableEq, Repr

/-- The fatal errors that halt a unit (60_exceptions R115); `E_CONFIG` is not among them, the unit stays `OFF`. -/
inductive FatalError where
  | auth | framing | trunc | overflow
deriving DecidableEq, Repr

/-- The response codes (30_encoding R54). -/
inductive Response where
  | ok | eConfig | eCipher | eAuth | eFraming | eTrunc | eRejected | eOverflow
deriving DecidableEq, Repr

/-- ENC's in-flight latch (10_state R26). -/
inductive EncInflight where
  | none
  | encReq
deriving DecidableEq, Repr

/-- DEC's in-flight latch: the additional data of the frame being decrypted (10_state R26). -/
inductive DecInflight where
  | none
  | decReq (aad : Bytes)
deriving DecidableEq, Repr

/-- EncoderState (10_state R11). `A` is not stored: it is always `len(aad)` (R20). -/
structure EncoderState where
  key : Key
  N : Nat
  currentNonce : Bytes
  T : Nat
  aad : Bytes
  NIF : Bool
  LP : Bool
  EXT : Bool
  state : EncPhase
  fault : FaultCode
  inflight : EncInflight
deriving DecidableEq, Repr

/-- DecoderState (10_state R13). -/
structure DecoderState where
  key : Key
  N : Nat
  EXT : Bool
  extNonce : Bytes
  T : Nat
  A : Nat
  NIF : Bool
  LP : Bool
  pending : Bytes
  state : DecPhase
  fault : FaultCode
  inflight : DecInflight
deriving DecidableEq, Repr

/-- Which of the adapter's two functions a request asks for (41_aead_adapter R69). -/
inductive CipherOp where
  | encrypt
  | decrypt
deriving DecidableEq, Repr

/-- A request on the cipher port: the 6-tuple of 41_aead_adapter R69. -/
structure CipherRequest where
  op : CipherOp
  data : Bytes
  key : Key
  nonce : Bytes
  aad : Bytes
  T : Nat
deriving DecidableEq, Repr

/-- What a unit sends to the host: a delimited output chunk (20_memory R34) or a response code (30_encoding R54). -/
inductive HostEvent where
  | chunk (b : Bytes)
  | response (r : Response)
deriving DecidableEq, Repr

/-- The transaction ports of one unit (00_scope R8). -/
structure Port where
  /-- Commands offered and not yet accepted: they wait at the port (44_config R107), oldest first and without a bound
  (log 11). -/
  commands : List Command
  /-- Output chunks and responses, in the order sent (20_memory R38). -/
  sent : List HostEvent
  /-- Answers of `RD`, as index and value, in order (10_state R15). -/
  reads : List (Nat × Nat)
  /-- The outstanding cipher request with its ticket (41_aead_adapter R69, R74; log 13). -/
  request : Option (Nat × CipherRequest)
  /-- The model's own counter: requests carried so far, so the next request's ticket (log 13). -/
  tickets : Nat
  /-- The model's own counter behind the unit's free values (log 6). -/
  freeUses : Nat
deriving DecidableEq, Repr

/-- One move of one agent (INVENTORY.md, Agents; log 2). -/
inductive Move where
  /-- The host offers a command on the unit's command port. -/
  | offer (u : UnitId) (c : Command)
  /-- The host asserts the unit's reset input (70_reset R125). -/
  | rst (u : UnitId)
  /-- The host reads a register of the unit (10_state R15). -/
  | read (u : UnitId) (index : Nat)
  /-- The adapter answers the request with this ticket of the unit's cipher port (41_aead_adapter R69). -/
  | reply (u : UnitId) (ticket : Nat)
  /-- The unit itself moves: it accepts a waiting command, or does one `SCAN` step. -/
  | unit (u : UnitId)
deriving DecidableEq, Repr

/-- Reasons the machine stops. The block's own errors are responses, not stops (60_exceptions R112). -/
inductive Fault where
  /-- Raised by a unit that takes a command whose chunk is longer than `MAX_CHUNK`: the port cannot carry it, so no such
  command exists (30_encoding R51; log 9). Safe: the model stops where the hardware cannot be. -/
  | chunkExceedsPort
deriving DecidableEq, Repr

/-- Reasons an instruction has no meaning. -/
inductive Refusal where
  /-- Only an arm of `exec` for an instruction not modelled yet answers this; no arm does. Safe. -/
  | notModelled (mnemonic : String)
deriving DecidableEq, Repr

/-- The machine: one ENC and one DEC instance (log 1), their ports, and the agents' moves to come. -/
structure State where
  enc : EncoderState
  dec : DecoderState
  encPort : Port
  decPort : Port
  /-- How many draws ENC's random-number port has answered (10_state R29; log 5). -/
  draws : Nat
  /-- The agents' moves to come, the next first (log 2). -/
  schedule : List Move
deriving DecidableEq, Repr

/-- ENC's reset state (70_reset R126) around an unspecified nonce. -/
def EncoderState.resetWith (nonce : Bytes) : EncoderState where
  key := .invalid
  N := 12
  currentNonce := nonce
  T := 128
  aad := []
  NIF := true
  LP := true
  EXT := false
  state := .off
  fault := .none
  inflight := .none

/-- DEC's reset state (70_reset R126) around an unspecified pinned nonce. -/
def DecoderState.resetWith (nonce : Bytes) : DecoderState where
  key := .invalid
  N := 12
  EXT := false
  extNonce := nonce
  T := 128
  A := 0
  NIF := true
  LP := true
  pending := []
  state := .off
  fault := .none
  inflight := .none

/-- Ports nothing has passed through yet. -/
def Port.empty : Port where
  commands := []
  sent := []
  reads := []
  request := none
  tickets := 0
  freeUses := 0

/-- The machine right after reset (70_reset R126). DESIGN CHOICE, log 7: the two nonces the spec leaves unspecified are
twelve zero bytes here; unsafe, no claim may rest on it. -/
def State.reset : State where
  enc := .resetWith (List.replicate 12 0#8)
  dec := .resetWith (List.replicate 12 0#8)
  encPort := .empty
  decPort := .empty
  draws := 0
  schedule := []

end Sys2Proof.Machine
end

