-- ==== Sys2Proof/Machine/Flags.lean ====
section
/-! DEFINITION. Codes and flags: the phase codes (10_state R14), the fault code (R25), the response codes
(30_encoding R54), and the read-only register view `RD` (R15 to R20, R24). -/

namespace Sys2Proof.Machine

/-- The phase code (10_state R14). -/
def EncPhase.code : EncPhase → BitVec 4
  | .off => 0
  | .ready => 1
  | .cipher => 3
  | .halted => 4

/-- The phase code (10_state R14). -/
def DecPhase.code : DecPhase → BitVec 4
  | .off => 0
  | .ready => 1
  | .scan => 2
  | .cipher => 3
  | .halted => 4
  | .ended => 5

/-- The command port accepts nothing in this phase: `STATUS.busy` (10_state R16). -/
def EncPhase.busy : EncPhase → Bool
  | .cipher => true
  | .off | .ready | .halted => false

/-- The command port accepts nothing in this phase: `STATUS.busy` (10_state R16). -/
def DecPhase.busy : DecPhase → Bool
  | .scan | .cipher => true
  | .off | .ready | .halted | .ended => false

/-- The 4-bit fault code (10_state R25). -/
def FaultCode.code : FaultCode → BitVec 4
  | .none => 0
  | .config => 1
  | .auth => 3
  | .framing => 4
  | .trunc => 5
  | .overflow => 7

/-- The 8-bit response code (30_encoding R54). -/
def Response.code : Response → Byte
  | .ok => 0x00#8
  | .eConfig => 0x01#8
  | .eCipher => 0x02#8
  | .eAuth => 0x03#8
  | .eFraming => 0x04#8
  | .eTrunc => 0x05#8
  | .eRejected => 0x06#8
  | .eOverflow => 0x07#8

/-- The response with the fault's code: the latched answer of a halted unit (44_config R109). -/
def FaultCode.response : FaultCode → Response
  | .none => .ok
  | .config => .eConfig
  | .auth => .eAuth
  | .framing => .eFraming
  | .trunc => .eTrunc
  | .overflow => .eOverflow

/-- The fault code a fatal error latches (60_exceptions R115). -/
def FatalError.fault : FatalError → FaultCode
  | .auth => .auth
  | .framing => .framing
  | .trunc => .trunc
  | .overflow => .overflow

/-- `STATUS` (10_state R16): state 3:0, fault 7:4, busy 8, bits 31:9 read as 0. -/
def statusWord (state : BitVec 4) (fault : FaultCode) (busy : Bool) : Word :=
  0#23 ++ BitVec.ofBool busy ++ fault.code ++ state

/-- `CFG_FLAGS` (10_state R17): LP 0, NIF 1, EXT 2, bits 31:3 read as 0. -/
def cfgFlagsWord (LP NIF EXT : Bool) : Word :=
  0#29 ++ BitVec.ofBool EXT ++ BitVec.ofBool NIF ++ BitVec.ofBool LP

/-- `A` on ENC is always `len(enc.aad)` (10_state R20). -/
def EncoderState.A (e : EncoderState) : Nat :=
  e.aad.length

/-- `RD(i)` on ENC (10_state R15). `PEND_LEN` reads 0 there. -/
def encRead (e : EncoderState) (index : Nat) : Nat :=
  match index with
  | 0 => (statusWord e.state.code e.fault e.state.busy).toNat
  | 1 => (cfgFlagsWord e.LP e.NIF e.EXT).toNat
  | 2 => e.N
  | 3 => e.T
  | 4 => e.A
  | _ => 0

/-- `RD(i)` on DEC (10_state R15). `PEND_LEN` is an unbounded natural (R24). -/
def decRead (d : DecoderState) (index : Nat) : Nat :=
  match index with
  | 0 => (statusWord d.state.code d.fault d.state.busy).toNat
  | 1 => (cfgFlagsWord d.LP d.NIF d.EXT).toNat
  | 2 => d.N
  | 3 => d.T
  | 4 => d.A
  | 5 => d.pending.length
  | _ => 0

/-- `RD(i)` of a unit: the value the register holds at that instant (10_state R15). -/
def State.rd (s : State) : UnitId → Nat → Nat
  | .enc => encRead s.enc
  | .dec => decRead s.dec

end Sys2Proof.Machine
end

