-- ==== Sys2Proof/Machine/Ops.lean ====
section
/-! DEFINITION. The named operations the meanings share: the ports, the accumulator (40_byte_utilities R63 to R65), the
random-number port (41_aead_adapter R73), raising a fatal error (60_exceptions R115), and the return to the reset
state (70_reset R126). -/

namespace Sys2Proof.Machine

/-- The ports of a unit. -/
def State.port (s : State) : UnitId → Port
  | .enc => s.encPort
  | .dec => s.decPort

/-- Put the ports of a unit. -/
def State.setPort (s : State) (u : UnitId) (q : Port) : State :=
  match u with
  | .enc => { s with encPort := q }
  | .dec => { s with decPort := q }

/-- The unit is in a phase in which its command port accepts nothing (10_state R14). -/
def State.busy (s : State) : UnitId → Bool
  | .enc => s.enc.state.busy
  | .dec => s.dec.state.busy

/-- Send one item to the host, after everything sent before (20_memory R38). -/
def send (u : UnitId) (e : HostEvent) (s : State) : State :=
  s.setPort u { s.port u with sent := (s.port u).sent ++ [e] }

/-- `emit(b)`: one delimited output chunk (20_memory R34). -/
def emit (u : UnitId) (b : Bytes) (s : State) : State :=
  send u (.chunk b) s

/-- `respond(c)`: the command's one response (30_encoding R54). -/
def respond (u : UnitId) (r : Response) (s : State) : State :=
  send u (.response r) s

/-- A command the unit does not run: answered `E_REJECTED`, nothing else changes (44_config R107, R108). -/
def reject (u : UnitId) (s : State) : State :=
  respond u .eRejected s

/-- The code latched in `fault` (10_state R25). -/
def State.latched (s : State) : UnitId → FaultCode
  | .enc => s.enc.fault
  | .dec => s.dec.fault

/-- A command given to a halted unit: answered with the latched code, nothing else changes (44_config R109). -/
def respondLatched (u : UnitId) (s : State) : State :=
  respond u (s.latched u).response s

/-- The port accepts nothing in `SCAN` and `CIPHER`: the command waits, first in the queue (44_config R107; log 17). -/
def holdAtPort (i : Instr) (s : State) : State :=
  s.setPort i.unit { s.port i.unit with commands := encode i :: (s.port i.unit).commands }

/-- `raise X` for a fatal `X`: the one entry sequence of 60_exceptions R115. -/
def raiseFatal (u : UnitId) (x : FatalError) (s : State) : State :=
  match u with
  | .enc => respond .enc x.fault.response
      { s with enc := { s.enc with inflight := .none, fault := x.fault, state := .halted } }
  | .dec => respond .dec x.fault.response
      { s with dec := { s.dec with inflight := .none, fault := x.fault, state := .halted } }

/-- `ACC.APPEND(chunk)` (40_byte_utilities R63). -/
def DecoderState.accAppend (d : DecoderState) (chunk : Bytes) : DecoderState :=
  { d with pending := d.pending ++ chunk }

/-- `ACC.TAKE(n)` (40_byte_utilities R64): the removed bytes and the decoder without them. -/
def DecoderState.accTake (d : DecoderState) (n : Nat) : Bytes × DecoderState :=
  (slice d.pending 0 n, { d with pending := slice d.pending n d.pending.length })

/-- `ACC.RESET()` (40_byte_utilities R65). -/
def DecoderState.accReset (d : DecoderState) : DecoderState :=
  { d with pending := [] }

/-- `n` bytes of which the spec says nothing (93_implementation_defined U14): a free value, log 6. -/
def unspecifiedBytes (p : Params) (u : UnitId) (n : Nat) (s : State) : Bytes :=
  (List.range n).map (p.free u (s.port u).freeUses)

/-- The unit's next free value will be another one (log 6). -/
def spendFree (u : UnitId) (s : State) : State :=
  s.setPort u { s.port u with freeUses := (s.port u).freeUses + 1 }

/-- The value of `draw(n)` now: `n` bytes from ENC's random-number port (41_aead_adapter R73; log 5). -/
def drawnBytes (p : Params) (n : Nat) (s : State) : Bytes :=
  (List.range n).map (p.rng s.draws)

/-- Every field of the unit to its reset value (70_reset R126); the nonce is unspecified, twelve bytes of any value. -/
def resetUnit (p : Params) (u : UnitId) (s : State) : State :=
  match u with
  | .enc => spendFree .enc { s with enc := .resetWith (unspecifiedBytes p .enc 12 s) }
  | .dec => spendFree .dec { s with dec := .resetWith (unspecifiedBytes p .dec 12 s) }

/-- Put a request on the unit's cipher port, under the next ticket (41_aead_adapter R69; log 13). -/
def issueRequest (u : UnitId) (r : CipherRequest) (s : State) : State :=
  s.setPort u { s.port u with request := some ((s.port u).tickets, r), tickets := (s.port u).tickets + 1 }

/-- No request is outstanding on the unit's cipher port. -/
def clearRequest (u : UnitId) (s : State) : State :=
  s.setPort u { s.port u with request := none }

/-- `RST` (70_reset R125): the reset state at once; an outstanding request is forgotten, nothing is sent. -/
def assertReset (p : Params) (u : UnitId) (s : State) : State :=
  clearRequest u (resetUnit p u s)

/-- The adapter's reply to a request: the value of its function on the request's arguments (41_aead_adapter R68, R69). -/
def adapterAnswer (p : Params) (r : CipherRequest) : Option Bytes :=
  match r.op with
  | .encrypt => p.encrypt r.data r.key r.nonce r.aad r.T
  | .decrypt => p.decrypt r.data r.key r.nonce r.aad r.T

end Sys2Proof.Machine
end

