-- ==== Sys2Proof/Machine/Decoder.lean ====
section
/-! DEFINITION. The Frame Decoder's data path (43_frame_decoder R87 to R95): the append, the boundary detector, `PARSE`,
the `SCAN` step and the reply step. -/

namespace Sys2Proof.Machine

/-- `H`, the header width (43_frame_decoder). -/
def DecoderState.H (d : DecoderState) : Nat :=
  if d.LP then 4 else 0

/-- `W`, the on-wire nonce width (00_scope R6; 90_conflicts C1). -/
def DecoderState.W (d : DecoderState) : Nat :=
  if d.NIF then d.N else 0

/-- `TB`, the tag's bytes (10_state R19). -/
def DecoderState.TB (d : DecoderState) : Nat :=
  d.T / 8

/-- `LMIN`, the smallest legal length field (00_scope R6). -/
def DecoderState.lmin (d : DecoderState) : Nat :=
  4 + d.W + d.TB + d.A

/-- What the boundary detector answers (43_frame_decoder R88). -/
inductive Detected where
  | wait
  | malformed
  | frame (length : Nat)
deriving DecidableEq, Repr

/-- `DETECT(dec)`: in prefixed mode 43_frame_decoder R88, in unprefixed mode R89. -/
def detect (d : DecoderState) : Detected :=
  if d.LP then
    if d.pending.length < 4 then .wait
    else if be32Dec (slice d.pending 0 4) < d.lmin then .malformed
    else if d.pending.length < be32Dec (slice d.pending 0 4) then .wait
    else .frame (be32Dec (slice d.pending 0 4))
  else
    if d.pending.length = 0 then .wait
    else if d.pending.length < d.W + d.TB + d.A then .malformed
    else .frame d.pending.length

/-- The three parts of an extracted frame (43_frame_decoder R91). -/
structure Parsed where
  nonce : Bytes
  ctTag : Bytes
  aad : Bytes
deriving DecidableEq, Repr

/-- `PARSE(dec, F)` (43_frame_decoder R91): every offset is computed (90_conflicts C6). -/
def parse (d : DecoderState) (frame : Bytes) : Parsed where
  nonce := if d.EXT then d.extNonce else slice frame d.H (d.H + d.N)
  ctTag := slice frame (d.H + d.W) (frame.length - d.A)
  aad := slice frame (frame.length - d.A) frame.length

/-- What DEC passes to the adapter, exactly (41_aead_adapter R76). -/
def DecoderState.request (d : DecoderState) (f : Parsed) : CipherRequest where
  op := .decrypt
  data := f.ctTag
  key := d.key
  nonce := f.nonce
  aad := f.aad
  T := d.T

/-- The additional data held by the latch (10_state R26). -/
def DecInflight.aad : DecInflight → Bytes
  | .none => []
  | .decReq aad => aad

/-- Steps 2b to 2e: take the frame off `pending`, parse it, make the decrypt request (43_frame_decoder R90 to R92). -/
def decExtract (length : Nat) (s : State) : State :=
  let taken := s.dec.accTake length
  let f := parse s.dec taken.1
  issueRequest .dec (s.dec.request f)
    { s with dec := { taken.2 with state := .cipher, inflight := .decReq f.aad } }

/-- One `SCAN` step: step 2a and what follows from it (43_frame_decoder R87, R88, R89). -/
def decScan (s : State) : State :=
  match detect s.dec with
  | .wait => respond .dec .ok { s with dec := { s.dec with state := .ready } }
  | .malformed => raiseFatal .dec .framing s
  | .frame length => decExtract length s

/-- The reply step (43_frame_decoder R93, R94): the plaintext and the latched additional data are one output chunk, and
the detector runs again; or the unit halts. -/
def decReply (reply : Option Bytes) (s : State) : State :=
  match reply with
  | none => raiseFatal .dec .auth s
  | some plaintext =>
    let s' := emit .dec (plaintext ++ s.dec.inflight.aad) s
    { s' with dec := { s'.dec with inflight := .none, state := .scan } }

/-- Steps 0 and 1 of `DECODE` (43_frame_decoder R87): the capacity check (20_memory R41), then the append. -/
def decAccept (p : Params) (chunk : Bytes) (s : State) : State :=
  if p.pendingCap.allows (s.dec.pending.length + chunk.length) then
    { s with dec := { s.dec.accAppend chunk with state := .scan } }
  else raiseFatal .dec .overflow s

/-- `DEC.DECODE(chunk)` by phase (44_config R107). -/
def decDecode (p : Params) (chunk : Bytes) (s : State) : State :=
  match s.dec.state with
  | .off => reject .dec s
  | .ready => decAccept p chunk s
  | .halted => respondLatched .dec s
  | .ended => reject .dec s
  | .scan | .cipher => holdAtPort (.decDecode chunk) s

/-- The meaning of `DEC.DECODE` (43_frame_decoder R87). -/
def execDecDecode (chunk : Bytes) (s : State) : Host.Outcome State Fault Refusal :=
  .next (decDecode Config.params chunk s)

end Sys2Proof.Machine
end

