-- ==== Sys2Proof/Machine/Encoder.lean ====
section
/-! DEFINITION. The Frame Encoder's data path (42_frame_encoder R78 to R84): the issue step, `ASSEMBLE`, the rotation and
the reply step. -/

namespace Sys2Proof.Machine

/-- `W`, the on-wire nonce width (00_scope R6). -/
def EncoderState.W (e : EncoderState) : Nat :=
  if e.NIF then e.N else 0

/-- `TB`, the tag's bytes (10_state R19). -/
def EncoderState.TB (e : EncoderState) : Nat :=
  e.T / 8

/-- The frame's length in prefixed mode if the adapter obeys the length law (42_frame_encoder R80). -/
def EncoderState.frameLength (e : EncoderState) (chunk : Bytes) : Nat :=
  4 + e.W + chunk.length + e.TB + e.A

/-- What ENC passes to the adapter, exactly (41_aead_adapter R76). -/
def EncoderState.request (e : EncoderState) (chunk : Bytes) : CipherRequest where
  op := .encrypt
  data := chunk
  key := e.key
  nonce := e.currentNonce
  aad := e.aad
  T := e.T

/-- The body of a frame: nonce if on the wire, ciphertext and tag, additional data (42_frame_encoder R79). -/
def EncoderState.body (e : EncoderState) (ctTag : Bytes) : Bytes :=
  (if e.NIF then e.currentNonce else []) ++ ctTag ++ e.aad

/-- `ASSEMBLE(enc, ct_tag)` (42_frame_encoder R79); `none` is its `FramingError`. -/
def assemble (e : EncoderState) (ctTag : Bytes) : Option Bytes :=
  if e.LP then
    if lmax < 4 + (e.body ctTag).length then none
    else some (be32Enc (4 + (e.body ctTag).length) ++ e.body ctTag)
  else some (e.body ctTag)

/-- The issue step (42_frame_encoder R80). -/
def encIssue (chunk : Bytes) (s : State) : State :=
  if s.enc.LP && decide (lmax < s.enc.frameLength chunk) then raiseFatal .enc .framing s
  else issueRequest .enc (s.enc.request chunk)
    { s with enc := { s.enc with state := .cipher, inflight := .encReq } }

/-- Rotation (42_frame_encoder R83): a fresh draw unless the nonce is pinned. -/
def rotate (p : Params) (s : State) : State :=
  if s.enc.EXT then s
  else { s with enc := { s.enc with currentNonce := drawnBytes p s.enc.N s }, draws := s.draws + 1 }

/-- Back to `READY`, the latch cleared, with the command's response (42_frame_encoder R78 steps 3 and 7). -/
def encFinish (r : Response) (s : State) : State :=
  respond .enc r { s with enc := { s.enc with inflight := .none, state := .ready } }

/-- The reply step (42_frame_encoder R81, R82): emit, rotate, respond, in that order. -/
def encReply (p : Params) (reply : Option Bytes) (s : State) : State :=
  match reply with
  | none => encFinish .eCipher s
  | some ctTag =>
    match assemble s.enc ctTag with
    | none => raiseFatal .enc .framing s
    | some frame => encFinish .ok (rotate p (emit .enc frame s))

/-- `ENC.ENCODE(chunk)` by phase (44_config R107). -/
def encEncode (chunk : Bytes) (s : State) : State :=
  match s.enc.state with
  | .off => reject .enc s
  | .ready => encIssue chunk s
  | .halted => respondLatched .enc s
  | .cipher => holdAtPort (.encEncode chunk) s

/-- The meaning of `ENC.ENCODE` (42_frame_encoder R78). -/
def execEncEncode (chunk : Bytes) (s : State) : Host.Outcome State Fault Refusal :=
  .next (encEncode chunk s)

end Sys2Proof.Machine
end

