-- ==== Sys2Proof/Machine/Operands.lean ====
section
/-! DEFINITION. The one structured operand: the configuration record of `CONFIG` (30_encoding R52), its reader, its
writer, and the eight validation checks (44_config R101). -/

namespace Sys2Proof.Machine

/-- The options a configuration record carries (30_encoding R52). -/
structure ConfigRecord where
  LP : Bool
  NIF : Bool
  EXT : Bool
  N : Nat
  T : Nat
  A : Nat
  extNonce : Bytes
  aad : Bytes
deriving DecidableEq, Repr

/-- `DEFAULTS` (44_config R100): what an empty payload means. -/
def ConfigRecord.defaults : ConfigRecord where
  LP := true
  NIF := true
  EXT := false
  N := 12
  T := 128
  A := 0
  extNonce := []
  aad := []

/-- `E`: the bytes `extNonce` takes in the record (30_encoding R52). -/
def ConfigRecord.E (c : ConfigRecord) : Nat :=
  if c.EXT then c.N else 0

/-- `W`, the on-wire nonce width (00_scope R6; 90_conflicts C1). -/
def ConfigRecord.W (c : ConfigRecord) : Nat :=
  if c.NIF then c.N else 0

/-- The record's length on the unit (30_encoding R52): `13 + E + A` on ENC, `13 + E` on DEC. -/
def ConfigRecord.length (u : UnitId) (c : ConfigRecord) : Nat :=
  match u with
  | .enc => 13 + c.E + c.A
  | .dec => 13 + c.E

/-- The `flags` byte (30_encoding R52); 0 of an empty payload, which has none. -/
def recordFlags (payload : Bytes) : Byte :=
  payload.headD 0#8

/-- The fields of a payload, as far as they can be read (44_config R100 step 1). -/
def readRecord (u : UnitId) (payload : Bytes) : ConfigRecord :=
  if payload = [] then .defaults
  else
    let flags := recordFlags payload
    let N := be32Dec (slice payload 1 5)
    let A := be32Dec (slice payload 9 13)
    let E := if flags.getLsbD 2 then N else 0
    { LP := flags.getLsbD 0
      NIF := flags.getLsbD 1
      EXT := flags.getLsbD 2
      N := N
      T := be32Dec (slice payload 5 9)
      A := A
      extNonce := slice payload 13 (13 + E)
      aad := match u with
        | .enc => slice payload (13 + E) (13 + E + A)
        | .dec => [] }

/-- The record written out (30_encoding R52); DEC's has no `aad` field. -/
def writeRecord (u : UnitId) (c : ConfigRecord) : Bytes :=
  (0#5 ++ BitVec.ofBool c.EXT ++ BitVec.ofBool c.NIF ++ BitVec.ofBool c.LP) ::
    (be32Enc c.N ++ be32Enc c.T ++ be32Enc c.A ++ (if c.EXT then c.extNonce else [])
      ++ match u with
        | .enc => c.aad
        | .dec => [])

/-- The legal (`NIF`, `EXT`) pairs of the unit (44_config R101, check 5). -/
def legalNoncePair : UnitId → Bool → Bool → Bool
  | .enc, NIF, EXT => NIF || EXT
  | .dec, NIF, EXT => NIF != EXT

/-- The eight checks of `CONFIG`, in the order they are made (44_config R101). -/
def configChecks (u : UnitId) (key : Key) (payload : Bytes) : List (Nat × Bool) :=
  let c := readRecord u payload
  [ (1, payload.isEmpty || decide (13 ≤ payload.length)),
    (2, recordFlags payload >>> 3 == 0#8),
    (3, key != .invalid),
    (4, c.T % 8 == 0 && decide (8 ≤ c.T)),
    (5, legalNoncePair u c.NIF c.EXT),
    (6, decide (1 ≤ c.N)),
    (7, !c.LP || decide (4 + c.W + c.T / 8 + c.A ≤ lmax)),
    (8, payload.isEmpty || payload.length == c.length u) ]

/-- The first check that fails; `none` when all pass (44_config R100 step 2). -/
def firstFailure (u : UnitId) (key : Key) (payload : Bytes) : Option Nat :=
  ((configChecks u key payload).find? (fun check => !check.2)).map Prod.fst

end Sys2Proof.Machine
end

