-- ==== Sys2Proof/Machine/Lifecycle.lean ====
section
/-! DEFINITION. The system commands (44_config R100 to R106): `CONFIG`, `DEC.END` and `CLOSE`, each by phase (R107). -/

namespace Sys2Proof.Machine

/-- The first nonce of an encoder: the pinned value, or a draw made now (44_config R102; D16). -/
def firstNonce (p : Params) (c : ConfigRecord) (s : State) : Bytes :=
  if c.EXT then c.extNonce else drawnBytes p c.N s

/-- What a successful `ENC.CONFIG` loads (44_config R100 steps 3 and 4, R102). -/
def loadEnc (p : Params) (key : Key) (c : ConfigRecord) (s : State) : State :=
  { s with
    enc :=
      { key := key, N := c.N, currentNonce := firstNonce p c s, T := c.T, aad := c.aad,
        NIF := c.NIF, LP := c.LP, EXT := c.EXT, state := .ready, fault := .none, inflight := .none }
    draws := if c.EXT then s.draws else s.draws + 1 }

/-- What a successful `DEC.CONFIG` loads (44_config R100 steps 3 and 4, R103); without a pinned nonce `extNonce` is
unspecified, a free value of `N` bytes (log 6). -/
def loadDec (p : Params) (key : Key) (c : ConfigRecord) (s : State) : State :=
  let loaded : DecoderState :=
    { key := key, N := c.N, EXT := c.EXT,
      extNonce := if c.EXT then c.extNonce else unspecifiedBytes p .dec c.N s,
      T := c.T, A := c.A, NIF := c.NIF, LP := c.LP, pending := s.dec.pending,
      state := .ready, fault := .none, inflight := .none }
  let s' := { s with dec := loaded.accReset }
  if c.EXT then s' else spendFree .dec s'

/-- A failed `CONFIG` (44_config R100 step 2): the reset state with `fault = E_CONFIG`, and the response. -/
def configFailed (p : Params) (u : UnitId) (s : State) : State :=
  match u with
  | .enc =>
    let s' := resetUnit p .enc s
    respond .enc .eConfig { s' with enc := { s'.enc with fault := .config } }
  | .dec =>
    let s' := resetUnit p .dec s
    respond .dec .eConfig { s' with dec := { s'.dec with fault := .config } }

/-- `ENC.CONFIG` in phase `OFF` (44_config R100, R102). -/
def encConfigRun (p : Params) (key : Key) (payload : Bytes) (s : State) : State :=
  match firstFailure .enc key payload with
  | some _ => configFailed p .enc s
  | none => respond .enc .ok (loadEnc p key (readRecord .enc payload) s)

/-- `DEC.CONFIG` in phase `OFF` (44_config R100, R103). -/
def decConfigRun (p : Params) (key : Key) (payload : Bytes) (s : State) : State :=
  match firstFailure .dec key payload with
  | some _ => configFailed p .dec s
  | none => respond .dec .ok (loadDec p key (readRecord .dec payload) s)

/-- `ENC.CONFIG(k, payload)` by phase (44_config R107). -/
def encConfig (p : Params) (key : Key) (payload : Bytes) (s : State) : State :=
  match s.enc.state with
  | .off => encConfigRun p key payload s
  | .ready => reject .enc s
  | .halted => respondLatched .enc s
  | .cipher => holdAtPort (.encConfig key payload) s

/-- `DEC.CONFIG(k, payload)` by phase (44_config R107). -/
def decConfig (p : Params) (key : Key) (payload : Bytes) (s : State) : State :=
  match s.dec.state with
  | .off => decConfigRun p key payload s
  | .ready => reject .dec s
  | .halted => respondLatched .dec s
  | .ended => reject .dec s
  | .scan | .cipher => holdAtPort (.decConfig key payload) s

/-- `DEC.END` in phase `READY` (44_config R104). -/
def decEndRun (s : State) : State :=
  if s.dec.pending.length = 0 then
    respond .dec .ok { s with dec := { s.dec with state := .ended } }
  else raiseFatal .dec .trunc s

/-- `DEC.END()` by phase (44_config R107). -/
def decEnd (s : State) : State :=
  match s.dec.state with
  | .off => reject .dec s
  | .ready => decEndRun s
  | .halted => respondLatched .dec s
  | .ended => reject .dec s
  | .scan | .cipher => holdAtPort .decEnd s

/-- `ENC.CLOSE()` in every stable phase (44_config R105). -/
def encClose (p : Params) (s : State) : State :=
  match s.enc.state with
  | .off | .ready | .halted => respond .enc .ok (resetUnit p .enc s)
  | .cipher => holdAtPort .encClose s

/-- `DEC.CLOSE()` in every stable phase (44_config R106). -/
def decClose (p : Params) (s : State) : State :=
  match s.dec.state with
  | .off | .ready | .halted | .ended => respond .dec .ok (resetUnit p .dec s)
  | .scan | .cipher => holdAtPort .decClose s

/-- The meaning of `ENC.CONFIG` (44_config R102). -/
def execEncConfig (key : Key) (payload : Bytes) (s : State) : Host.Outcome State Fault Refusal :=
  .next (encConfig Config.params key payload s)

/-- The meaning of `DEC.CONFIG` (44_config R103). -/
def execDecConfig (key : Key) (payload : Bytes) (s : State) : Host.Outcome State Fault Refusal :=
  .next (decConfig Config.params key payload s)

/-- The meaning of `DEC.END` (44_config R104). -/
def execDecEnd (s : State) : Host.Outcome State Fault Refusal :=
  .next (decEnd s)

/-- The meaning of `ENC.CLOSE` (44_config R105). -/
def execEncClose (s : State) : Host.Outcome State Fault Refusal :=
  .next (encClose Config.params s)

/-- The meaning of `DEC.CLOSE` (44_config R106). -/
def execDecClose (s : State) : Host.Outcome State Fault Refusal :=
  .next (decClose Config.params s)

end Sys2Proof.Machine
end

