-- ==== Sys2Proof/WellFormed.lean ====
section
/-! DEFINITION. The one condition on a command that its port imposes: a chunk has 0 to `MAX_CHUNK` bytes
(30_encoding R51). Every other payload has a defined outcome (R56: decoding is total). -/

namespace Sys2Proof

/-- The port of a unit with this `MAX_CHUNK` can carry the command (30_encoding R51). -/
def Instr.wellFormed (maxChunk : Capacity) : Instr → Bool
  | .encConfig _ _ => true
  | .decConfig _ _ => true
  | .encEncode chunk => maxChunk.allows chunk.length
  | .decDecode chunk => maxChunk.allows chunk.length
  | .decEnd => true
  | .encClose => true
  | .decClose => true

end Sys2Proof
end

