-- ==== Sys2Proof/Machine/Agents.lean ====
section
/-! DEFINITION. The agents' moves: the host's (00_scope R8), the adapter's (41_aead_adapter R69) and the units' own
(20_memory R38). Everything is a function of the parameters (92_eei_decisions: "A model is a function of these four"). -/

namespace Sys2Proof.Machine

/-- Every command's meaning under given parameters; `exec` is this under `Config.params`. -/
def runWith (p : Params) (i : Instr) (s : State) : Host.Outcome State Fault Refusal :=
  match i with
  | .encConfig key payload => .next (encConfig p key payload s)
  | .decConfig key payload => .next (decConfig p key payload s)
  | .encEncode chunk => .next (encEncode chunk s)
  | .decDecode chunk => .next (decDecode p chunk s)
  | .decEnd => .next (decEnd s)
  | .encClose => .next (encClose p s)
  | .decClose => .next (decClose p s)

/-- A unit in a stable phase takes the command that has waited longest, if any: an unknown code is rejected
(44_config R108), a command is run by `run`; a chunk the port cannot carry stops the machine (log 9). -/
def acceptCommand (p : Params) (run : Instr → State → Host.Outcome State Fault Refusal) (u : UnitId) (s : State) :
    Host.Outcome State Fault Refusal :=
  match (s.port u).commands with
  | [] => .next s
  | c :: rest =>
    let s' := s.setPort u { s.port u with commands := rest }
    match decode u c with
    | .error _ => .next (reject u s')
    | .ok i => if i.wellFormed p.maxChunk then run i s' else .fault .chunkExceedsPort

/-- A unit's own move: accept in a stable phase, one `SCAN` step, or wait for the adapter (10_state R14;
41_aead_adapter R75). -/
def unitMove (p : Params) (run : Instr → State → Host.Outcome State Fault Refusal) (u : UnitId) (s : State) :
    Host.Outcome State Fault Refusal :=
  match u with
  | .enc =>
    match s.enc.state with
    | .off | .ready | .halted => acceptCommand p run .enc s
    | .cipher => .next s
  | .dec =>
    match s.dec.state with
    | .off | .ready | .halted | .ended => acceptCommand p run .dec s
    | .scan => .next (decScan s)
    | .cipher => .next s

/-- A reply reaches a unit: it is taken in `CIPHER`, which ends the request, and ignored otherwise (70_reset R125). -/
def takeReply (p : Params) (u : UnitId) (reply : Option Bytes) (s : State) : State :=
  match u with
  | .enc =>
    match s.enc.state with
    | .cipher => encReply p reply (clearRequest .enc s)
    | .off | .ready | .halted => s
  | .dec =>
    match s.dec.state with
    | .cipher => decReply reply (clearRequest .dec s)
    | .off | .ready | .scan | .halted | .ended => s

/-- The adapter answers the request with this ticket (41_aead_adapter R69). A reply to any other request, one that `RST`
has made the unit forget, is ignored (70_reset R125; log 13). -/
def replyMove (p : Params) (u : UnitId) (ticket : Nat) (s : State) : State :=
  match (s.port u).request with
  | none => s
  | some (t, r) => if t = ticket then takeReply p u (adapterAnswer p r) s else s

/-- The host offers a command: it waits at the port (44_config R107), behind those offered before and also in a stable phase
until the unit's next move (log 11). -/
def offerMove (u : UnitId) (c : Command) (s : State) : State :=
  s.setPort u { s.port u with commands := (s.port u).commands ++ [c] }

/-- The host reads a register, in any phase, with no effect on the unit (10_state R15). -/
def readMove (u : UnitId) (index : Nat) (s : State) : State :=
  s.setPort u { s.port u with reads := (s.port u).reads ++ [(index, s.rd u index)] }

/-- What one move does. -/
def moveWith (p : Params) (run : Instr → State → Host.Outcome State Fault Refusal) (m : Move) (s : State) :
    Host.Outcome State Fault Refusal :=
  match m with
  | .offer u c => .next (offerMove u c s)
  | .rst u => .next (assertReset p u s)
  | .read u index => .next (readMove u index s)
  | .reply u ticket => .next (replyMove p u ticket s)
  | .unit u => unitMove p run u s

/-- One step: the next move of the schedule; with none left nothing moves (log 2). -/
def stepWith (p : Params) (run : Instr → State → Host.Outcome State Fault Refusal) (s : State) :
    Host.Outcome State Fault Refusal :=
  match s.schedule with
  | [] => .next s
  | m :: rest => moveWith p run m { s with schedule := rest }

/-- The step under given parameters: `step` is this under `Config.params`. -/
def stepUnder (p : Params) (s : State) : Host.Outcome State Fault Refusal :=
  stepWith p (runWith p) s

/-- Give `nbits` bits `w` to the port they are read on, and that unit the next move (log 15, log 16). -/
def placeTableWord (nbits w : Nat) (s : State) : State :=
  match tableBytes nbits w with
  | [] => s
  | code :: payload =>
    let u := tableUnit (code :: payload)
    let s' := s.setPort u { s.port u with commands := ⟨code, payload, .invalid⟩ :: (s.port u).commands }
    { s' with schedule := .unit u :: s'.schedule }

end Sys2Proof.Machine
end

