-- ==== Sys2Proof/Machine/Dispatch.lean ====
section
/-! DEFINITION. One arm per command: the meaning it has. -/

namespace Sys2Proof.Machine

def exec (i : Instr) (s : State) : Host.Outcome State Fault Refusal :=
  match i with
  | .encConfig key payload => Sys2Proof.Machine.execEncConfig key payload s
  | .decConfig key payload => Sys2Proof.Machine.execDecConfig key payload s
  | .encEncode chunk => Sys2Proof.Machine.execEncEncode chunk s
  | .decDecode chunk => Sys2Proof.Machine.execDecDecode chunk s
  | .decEnd => Sys2Proof.Machine.execDecEnd s
  | .encClose => Sys2Proof.Machine.execEncClose s
  | .decClose => Sys2Proof.Machine.execDecClose s

end Sys2Proof.Machine
end

