-- ==== Sys2Proof/Machine/Step.lean ====
section
/-! DEFINITION. The step of the machine under the uninterpreted parameters of Config. -/

namespace Sys2Proof.Machine

/-- One step: the next move of the schedule (log 2). -/
def step (s : State) : Host.Outcome State Fault Refusal :=
  stepWith Config.params exec s

/-- `s` with the command of these bits first in the queue of the port it is read on, and that unit to move next, so that
the very next step of a unit in a stable phase runs it (log 16). -/
def State.withFetchWord (s : State) (nbits w : Nat) : State :=
  placeTableWord nbits w s

end Sys2Proof.Machine
end

