-- ==== Sys2Proof/Machine/OnePiece.lean ====
section
/-! DEFINITION. `ENCODE` and `DECODE` "as one piece": the pseudocode of 42_frame_encoder R78 and 43_frame_decoder R87 written
down directly, over the state records, with the adapter's replies in place. Claims about whole commands are stated with
these, and a refinement claim ties them to the machine's steps. -/

namespace Sys2Proof.Machine

/-- What one whole command does: the state record after it, the output chunks, the response. -/
structure Whole (σ : Type) where
  state : σ
  out : List Bytes
  response : Response
deriving DecidableEq, Repr

/-- The whole of `ENC.ENCODE(chunk)` from `READY` (42_frame_encoder R78); `drawn` is the value of step 6's draw. -/
def encodeWhole (p : Params) (drawn : Bytes) (e : EncoderState) (chunk : Bytes) : Whole EncoderState :=
  if e.LP ∧ lmax < 4 + e.W + chunk.length + e.TB + e.A then
    ⟨{ e with inflight := .none, fault := .framing, state := .halted }, [], .eFraming⟩
  else
    match p.encrypt chunk e.key e.currentNonce e.aad e.T with
    | none => ⟨{ e with inflight := .none, state := .ready }, [], .eCipher⟩
    | some ctTag =>
      match assemble e ctTag with
      | none => ⟨{ e with inflight := .none, fault := .framing, state := .halted }, [], .eFraming⟩
      | some frame =>
        ⟨{ e with
            currentNonce := if e.EXT then e.currentNonce else drawn
            inflight := .none
            state := .ready }, [frame], .ok⟩

/-- Step 2 of `DEC.DECODE`, the loop, from `SCAN` (43_frame_decoder R87). Each iteration that goes on removes a frame
(R95), so `fuel` above the number of pending bytes is never used up. -/
def decodeLoop (p : Params) : Nat → DecoderState → Whole DecoderState
  | 0, d => ⟨d, [], .ok⟩
  | fuel + 1, d =>
    match detect d with
    | .wait => ⟨{ d with state := .ready }, [], .ok⟩
    | .malformed => ⟨{ d with inflight := .none, fault := .framing, state := .halted }, [], .eFraming⟩
    | .frame length =>
      let f := parse d (slice d.pending 0 length)
      let rest := { d with pending := slice d.pending length d.pending.length }
      match p.decrypt f.ctTag d.key f.nonce f.aad d.T with
      | none => ⟨{ rest with inflight := .none, fault := .auth, state := .halted }, [], .eAuth⟩
      | some plaintext =>
        let w := decodeLoop p fuel { rest with inflight := .none }
        ⟨w.state, (plaintext ++ f.aad) :: w.out, w.response⟩

/-- The whole of `DEC.DECODE(chunk)` from `READY` (43_frame_decoder R87). -/
def decodeWhole (p : Params) (d : DecoderState) (chunk : Bytes) : Whole DecoderState :=
  if p.pendingCap.allows (d.pending.length + chunk.length) then
    decodeLoop p (d.pending.length + chunk.length + 1) { d with pending := d.pending ++ chunk, state := .scan }
  else ⟨{ d with inflight := .none, fault := .overflow, state := .halted }, [], .eOverflow⟩

/-- Feeding a decoder chunk by chunk, one `DECODE` each: the decoder at the end and all output chunks in order. A halted
decoder takes nothing more (44_config R109). -/
def feed (p : Params) (d : DecoderState) : List Bytes → DecoderState × List Bytes
  | [] => (d, [])
  | chunk :: more =>
    match d.state with
    | .ready =>
      let w := decodeWhole p d chunk
      let r := feed p w.state more
      (r.1, w.out ++ r.2)
    | .off | .scan | .cipher | .halted | .ended => feed p d more

end Sys2Proof.Machine
end

