-- ==== Sys2Proof/Safety.lean ====
section
/-! DEFINITION. What claims speak of: the invariants of 10_state R27, a finished run (44_config R111), matching
configurations (R103) and the adapter's named properties (41_aead_adapter R70, R71). -/

namespace Sys2Proof.Machine

/-- The configuration an encoder outside `OFF` holds (10_state R27 item 1; registers R18 to R20). -/
abbrev EncoderState.Configured (e : EncoderState) : Prop :=
  e.key ≠ .invalid ∧ e.T % 8 = 0 ∧ 8 ≤ e.T ∧ 1 ≤ e.N ∧ legalNoncePair .enc e.NIF e.EXT = true ∧
    e.currentNonce.length = e.N ∧ (e.LP = true → 4 + e.W + e.TB + e.A ≤ lmax) ∧
    e.N ≤ lmax ∧ e.T ≤ lmax ∧ e.A ≤ lmax

/-- The configuration a decoder outside `OFF` holds (10_state R27 item 1). -/
abbrev DecoderState.Configured (d : DecoderState) : Prop :=
  d.key ≠ .invalid ∧ d.T % 8 = 0 ∧ 8 ≤ d.T ∧ 1 ≤ d.N ∧ legalNoncePair .dec d.NIF d.EXT = true ∧
    (d.EXT = true → d.extNonce.length = d.N) ∧ (d.LP = true → d.lmin ≤ lmax) ∧
    d.N ≤ lmax ∧ d.T ≤ lmax ∧ d.A ≤ lmax

/-- Prefixed mode, at rest: `pending` holds no complete frame (10_state R27 item 4). -/
abbrev DecoderState.NoCompleteFrame (d : DecoderState) : Prop :=
  d.pending.length < 4 ∨
    4 ≤ d.pending.length ∧ d.lmin ≤ be32Dec (slice d.pending 0 4) ∧ d.pending.length < be32Dec (slice d.pending 0 4)

/-- The invariants of an encoder and its port (10_state R27 items 1, 2, 7, 8; R16; R26). -/
structure EncInv (e : EncoderState) (q : Port) : Prop where
  /-- Outside `OFF` the configuration is valid. -/
  configured : e.state ≠ .off → e.Configured
  /-- In `OFF` every field but `fault` and the unspecified nonce has its reset value; the nonce has 12 bytes. -/
  off : e.state = .off → { e with fault := .none } = EncoderState.resetWith e.currentNonce ∧ e.currentNonce.length = 12
  /-- The latch is set exactly in `CIPHER`. -/
  latch : e.inflight ≠ .none ↔ e.state = .cipher
  /-- A halted encoder latched a framing error, the only fatal error of ENC. -/
  halted : e.state = .halted → e.fault = .framing
  /-- `fault` is nonzero exactly in `HALTED`, or in `OFF` after a failed `CONFIG`. -/
  fault : e.fault ≠ .none ↔ e.state = .halted ∨ e.state = .off ∧ e.fault = .config
  /-- A request is outstanding exactly in `CIPHER`, and it carries the encoder's own nonce, data, key and tag length. -/
  request : q.request.isSome ↔ e.state = .cipher
  carried : ∀ t r, q.request = some (t, r) → r = e.request r.data
  /-- The outstanding request's ticket was issued before (log 13). -/
  fresh : ∀ t r, q.request = some (t, r) → t < q.tickets

/-- The invariants of a decoder and its port (10_state R27; R16; R24; R26). -/
structure DecInv (cap : Capacity) (d : DecoderState) (q : Port) : Prop where
  /-- Outside `OFF` the configuration is valid. -/
  configured : d.state ≠ .off → d.Configured
  /-- In `OFF` every field but `fault` and the unspecified nonce has its reset value. -/
  off : d.state = .off → { d with fault := .none } = DecoderState.resetWith d.extNonce
  /-- At rest in prefixed mode `pending` holds no complete frame. -/
  atRest : d.state = .ready → d.LP = true → d.NoCompleteFrame
  /-- At rest in unprefixed mode `pending` is empty. -/
  atRestUnprefixed : d.state = .ready → d.LP = false → d.pending = []
  /-- `pending` never exceeds its capacity. -/
  capacity : cap.allows d.pending.length = true
  /-- The latch is set exactly in `CIPHER`. -/
  latch : d.inflight ≠ .none ↔ d.state = .cipher
  /-- A halted decoder latched one of the four fatal errors. -/
  halted : d.state = .halted → d.fault = .auth ∨ d.fault = .framing ∨ d.fault = .trunc ∨ d.fault = .overflow
  /-- `fault` is nonzero exactly in `HALTED`, or in `OFF` after a failed `CONFIG`. -/
  fault : d.fault ≠ .none ↔ d.state = .halted ∨ d.state = .off ∧ d.fault = .config
  /-- After a clean end `pending` is empty. -/
  ended : d.state = .ended → d.pending = []
  /-- A request is outstanding exactly in `CIPHER`, and it carries the latched additional data, the key and the tag length. -/
  request : q.request.isSome ↔ d.state = .cipher
  carried : ∀ t r, q.request = some (t, r) →
    r.op = .decrypt ∧ r.key = d.key ∧ r.T = d.T ∧ d.inflight = .decReq r.aad ∧ d.TB ≤ r.data.length
  /-- The outstanding request's ticket was issued before (log 13). -/
  fresh : ∀ t r, q.request = some (t, r) → t < q.tickets

/-- The machine's invariant, under a given capacity of `pending`. -/
structure State.Inv (cap : Capacity) (s : State) : Prop where
  enc : EncInv s.enc s.encPort
  dec : DecInv cap s.dec s.decPort

/-- A unit is in a stable phase (10_state R14). -/
abbrev State.stable (s : State) (u : UnitId) : Prop :=
  s.busy u = false

/-- A run is finished: the host has no more commands and both units are in stable phases (44_config R111). -/
abbrev State.finished (s : State) : Prop :=
  s.schedule = [] ∧ s.encPort.commands = [] ∧ s.decPort.commands = [] ∧ s.stable .enc ∧ s.stable .dec

/-- The unit a move is about. -/
def Move.target : Move → UnitId
  | .offer u _ => u
  | .rst u => u
  | .read u _ => u
  | .reply u _ => u
  | .unit u => u

/-- All of the state that belongs to the encoder instance and its ports. -/
abbrev State.encSide (s : State) : EncoderState × Port × Nat :=
  (s.enc, s.encPort, s.draws)

/-- All of the state that belongs to the decoder instance and its ports. -/
abbrev State.decSide (s : State) : DecoderState × Port :=
  (s.dec, s.decPort)

/-- The configuration of an encoder: what only `CONFIG` loads (20_memory R40). -/
abbrev EncoderState.configuration (e : EncoderState) : Key × Nat × Nat × Bytes × Bool × Bool × Bool :=
  (e.key, e.N, e.T, e.aad, e.NIF, e.LP, e.EXT)

/-- The configuration of a decoder: what only `CONFIG` loads (20_memory R40). -/
abbrev DecoderState.configuration (d : DecoderState) : Key × Nat × Bool × Bytes × Nat × Nat × Bool × Bool :=
  (d.key, d.N, d.EXT, d.extNonce, d.T, d.A, d.NIF, d.LP)

/-- A command with another key handle beside it. -/
def Command.mapKey (f : Key → Key) (c : Command) : Command :=
  { c with key := f c.key }

/-- A move whose command has another key handle beside it. -/
def Move.mapKey (f : Key → Key) : Move → Move
  | .offer u c => .offer u (Command.mapKey f c)
  | .rst u => .rst u
  | .read u index => .read u index
  | .reply u ticket => .reply u ticket
  | .unit u => .unit u

/-- Ports with every key handle replaced. -/
def Port.mapKey (f : Key → Key) (q : Port) : Port :=
  { q with
    commands := q.commands.map (Command.mapKey f)
    request := q.request.map fun tr => (tr.1, { tr.2 with key := f tr.2.key }) }

/-- The machine with every key handle replaced: those of the units, of waiting commands and of commands to come. -/
def State.mapKey (f : Key → Key) (s : State) : State :=
  { s with
    enc := { s.enc with key := f s.enc.key }
    dec := { s.dec with key := f s.dec.key }
    encPort := s.encPort.mapKey f
    decPort := s.decPort.mapKey f
    schedule := s.schedule.map (Move.mapKey f) }

/-- The output chunks among what a unit has sent. -/
def chunksOf (sent : List HostEvent) : List Bytes :=
  sent.filterMap fun e => match e with
    | .chunk b => some b
    | .response _ => none

/-- The named property `aead_len` (41_aead_adapter R70). -/
abbrev AeadLen (p : Params) : Prop :=
  (∀ data key nonce aad T c, p.encrypt data key nonce aad T = some c → c.length = data.length + T / 8) ∧
  (∀ c key nonce aad T data, p.decrypt c key nonce aad T = some data → data.length + T / 8 = c.length)

/-- The named property `aead_roundtrip` (41_aead_adapter R71). -/
abbrev AeadRoundtrip (p : Params) : Prop :=
  ∀ data key nonce aad T c, p.encrypt data key nonce aad T = some c → p.decrypt c key nonce aad T = some data

/-- The decoder's configuration matches the encoder's (44_config R103). -/
abbrev Matches (e : EncoderState) (d : DecoderState) : Prop :=
  d.key = e.key ∧ d.N = e.N ∧ d.T = e.T ∧ d.A = e.A ∧ d.LP = e.LP ∧ d.NIF = e.NIF ∧ d.EXT = !e.NIF ∧
    (d.EXT = true → d.extNonce = e.currentNonce)

end Sys2Proof.Machine
end

