-- ==== Sys2Proof/Certificates/Slice0/Obligations.lean ====
section
/-! DEFINITION. The statements for the provers, in the order of the spec's files. Each docstring names the rule it
formalises; "log n" marks a clause that is the model's own choice. -/

open Sys2Proof Sys2Proof.Machine

/-- 10_state R16: the fields of `STATUS`, read through `RD(0)` in every state, and when `fault` is nonzero. -/
def Obligations.StatusRegisterFields : Prop :=
  (∀ (s : State) (u : UnitId),
    let status := BitVec.ofNat 32 (s.rd u 0)
    s.rd u 0 < 2 ^ 32 ∧
    status.extractLsb' 0 4 = (match u with | .enc => s.enc.state.code | .dec => s.dec.state.code) ∧
    status.extractLsb' 4 4 = (s.latched u).code ∧
    (status.getLsbD 8 = true ↔
      match u with
      | .enc => s.enc.state = .cipher
      | .dec => s.dec.state = .scan ∨ s.dec.state = .cipher) ∧
    ∀ i, 9 ≤ i → status.getLsbD i = false) ∧
  ∀ (cap : Capacity) (s : State), s.Inv cap →
    (s.enc.fault ≠ .none ↔ s.enc.state = .halted ∨ s.enc.state = .off ∧ s.enc.fault = .config) ∧
    (s.dec.fault ≠ .none ↔ s.dec.state = .halted ∨ s.dec.state = .off ∧ s.dec.fault = .config)

/-- 10_state R15: the register table, its reset values, and a read, in any phase, that leaves everything else alone (the
answer is delivered to the host, log 12). -/
def Obligations.RegisterReads : Prop :=
  (∀ s : State,
    s.rd .enc 0 = s.enc.state.code.toNat + 16 * s.enc.fault.code.toNat + 256 * s.enc.state.busy.toNat ∧
    s.rd .enc 1 = s.enc.LP.toNat + 2 * s.enc.NIF.toNat + 4 * s.enc.EXT.toNat ∧
    s.rd .enc 2 = s.enc.N ∧ s.rd .enc 3 = s.enc.T ∧ s.rd .enc 4 = s.enc.aad.length ∧ s.rd .enc 5 = 0 ∧
    s.rd .dec 0 = s.dec.state.code.toNat + 16 * s.dec.fault.code.toNat + 256 * s.dec.state.busy.toNat ∧
    s.rd .dec 1 = s.dec.LP.toNat + 2 * s.dec.NIF.toNat + 4 * s.dec.EXT.toNat ∧
    s.rd .dec 2 = s.dec.N ∧ s.rd .dec 3 = s.dec.T ∧ s.rd .dec 4 = s.dec.A ∧ s.rd .dec 5 = s.dec.pending.length ∧
    ∀ u i, 5 < i → s.rd u i = 0) ∧
  (∀ u : UnitId, (List.range 6).map (State.reset.rd u) = [0, 3, 12, 128, 0, 0]) ∧
  (∀ (s : State) (i : Nat) (rest : List Move),
    step { s with schedule := .read .enc i :: rest } =
      .next { s with
        schedule := rest
        encPort := { s.encPort with reads := s.encPort.reads ++ [(i, s.rd .enc i)] } }) ∧
  ∀ (s : State) (i : Nat) (rest : List Move),
    step { s with schedule := .read .dec i :: rest } =
      .next { s with
        schedule := rest
        decPort := { s.decPort with reads := s.decPort.reads ++ [(i, s.rd .dec i)] } }

/-- 10_state R21 to R24: no register shows the key, the nonces, the additional data's bytes or the contents of
`pending`: states that differ only in them read alike at every index. -/
def Obligations.SecretsAreUnreadable : Prop :=
  ∀ (s : State) (u : UnitId) (i : Nat) (key key' : Key) (nonce nonce' aad pending : Bytes),
    aad.length = s.enc.aad.length → pending.length = s.dec.pending.length →
    ({ s with
        enc := { s.enc with key := key, currentNonce := nonce, aad := aad }
        dec := { s.dec with key := key', extNonce := nonce', pending := pending } } : State).rd u i = s.rd u i

/-- 10_state R27 (with R16, R24, R26): every step keeps the invariants, from every state that meets them. -/
def Obligations.StepKeepsInvariants : Prop :=
  ∀ s t : State, s.Inv Config.pendingCap → step s = .next t → t.Inv Config.pendingCap

/-- 10_state R27: the state right after reset meets the invariants, whatever the capacity. -/
def Obligations.InvariantsHoldAtReset : Prop :=
  ∀ cap : Capacity, State.reset.Inv cap

/-- 10_state R27 item 3: in one step `pending` stays, grows at its tail by a chunk accepted in `READY`, loses a frame at
its head in `SCAN`, or is discarded as the unit goes to `OFF` or is configured. -/
def Obligations.PendingIsAQueue : Prop :=
  ∀ s t : State, step s = .next t →
    t.dec.pending = s.dec.pending ∨
    (s.dec.state = .ready ∧ t.dec.state = .scan ∧ ∃ chunk : Bytes, t.dec.pending = s.dec.pending ++ chunk) ∨
    (s.dec.state = .scan ∧ t.dec.state = .cipher ∧ ∃ frame : Bytes, s.dec.pending = frame ++ t.dec.pending) ∨
    (t.dec.pending = [] ∧ (t.dec.state = .off ∨ s.dec.state = .off))

/-- 20_memory R38: outputs are only added, in order, and in one step a unit sends nothing, one chunk, one response, or
one chunk and then its response. -/
def Obligations.OutputsPrecedeTheResponse : Prop :=
  ∀ (s t : State) (u : UnitId), step s = .next t →
    ∃ new : List HostEvent, (t.port u).sent = (s.port u).sent ++ new ∧
      (new = [] ∨ (∃ b, new = [.chunk b]) ∨ (∃ r, new = [.response r]) ∨ ∃ b r, new = [.chunk b, .response r])

/-- 20_memory R40: the configuration is written only by `CONFIG`, which runs only in `OFF`: it is the same after every
step that neither starts nor ends in `OFF`. -/
def Obligations.ConfigurationIsFixedWhileInUse : Prop :=
  ∀ s t : State, step s = .next t →
    (s.enc.state ≠ .off → t.enc.state ≠ .off → t.enc.configuration = s.enc.configuration) ∧
    (s.dec.state ≠ .off → t.dec.state ≠ .off → t.dec.configuration = s.dec.configuration)

/-- 00_scope R2, 60_exceptions R123: the two units share no state. A step about one unit leaves all of the other's side
alone, and what it does to its own depends on that side only. -/
def Obligations.UnitsAreIndependent : Prop :=
  (∀ (s t : State) (m : Move) (rest : List Move), s.schedule = m :: rest → step s = .next t →
    match m.target with
    | .enc => t.decSide = s.decSide
    | .dec => t.encSide = s.encSide) ∧
  ∀ (s s' t : State) (m : Move) (rest : List Move), s.schedule = m :: rest → s'.schedule = m :: rest →
    step s = .next t →
    match m.target with
    | .enc => s'.encSide = s.encSide → ∃ t', step s' = .next t' ∧ t'.encSide = t.encSide ∧ t'.decSide = s'.decSide
    | .dec => s'.decSide = s.decSide → ∃ t', step s' = .next t' ∧ t'.decSide = t.decSide ∧ t'.encSide = s'.encSide

/-- 10_state R21 ("never inspects it, never transforms it"): replacing every handle by another leaves every step the same
but for the handles, under an adapter that does not tell them apart. -/
def Obligations.KeyIsNeverInspected : Prop :=
  ∀ (p : Params) (f : Key → Key) (s t : State),
    (∀ k, f k = .invalid ↔ k = .invalid) →
    (∀ data k nonce aad T, p.encrypt data (f k) nonce aad T = p.encrypt data k nonce aad T) →
    (∀ data k nonce aad T, p.decrypt data (f k) nonce aad T = p.decrypt data k nonce aad T) →
    stepUnder p s = .next t → stepUnder p (s.mapKey f) = .next (t.mapKey f)

/-- 30_encoding R46 to R49: where the fields of an assembled frame lie, in all four layouts, for `P` plaintext bytes; with
all defaults it has `32 + P` bytes. -/
def Obligations.FrameLayouts : Prop :=
  ∀ (e : EncoderState) (ctTag F : Bytes) (P : Nat),
    e.currentNonce.length = e.N → ctTag.length = P + e.T / 8 → assemble e ctTag = some F →
    let H := if e.LP then 4 else 0
    let W := if e.NIF then e.N else 0
    F.length = H + W + P + e.T / 8 + e.aad.length ∧
    slice F 0 H = (if e.LP then be32Enc F.length else []) ∧
    slice F H (H + W) = (if e.NIF then e.currentNonce else []) ∧
    slice F (H + W) (F.length - e.aad.length) = ctTag ∧
    slice F (F.length - e.aad.length) F.length = e.aad ∧
    (e.LP = true → e.NIF = true → e.N = 12 → e.T = 128 → e.aad = [] → F.length = 32 + P)

/-- 30_encoding R50: the table of command codes, all 8 bits decoded, on both ports. -/
def Obligations.CommandCodesDecode : Prop :=
  ∀ c : Command,
    decode .enc c =
      (if c.code = 0x01#8 then .ok (.encConfig c.key c.payload)
       else if c.code = 0x02#8 then .ok (.encEncode c.payload)
       else if c.code = 0x05#8 then .ok .encClose
       else .error (.unknownCode c.code)) ∧
    decode .dec c =
      (if c.code = 0x01#8 then .ok (.decConfig c.key c.payload)
       else if c.code = 0x03#8 then .ok (.decDecode c.payload)
       else if c.code = 0x04#8 then .ok .decEnd
       else if c.code = 0x05#8 then .ok .decClose
       else .error (.unknownCode c.code))

/-- Words written out from 95_test_vectors section 4 decode to the commands they stand for. -/
def Obligations.WrittenCommandsDecode : Prop :=
  decodeBytes .enc (.handle 0) [0x01#8] = .ok (.encConfig (.handle 0) []) ∧
  decodeBytes .enc .invalid [0x02#8, 0x61#8, 0x62#8, 0x63#8] = .ok (.encEncode [0x61#8, 0x62#8, 0x63#8]) ∧
  decodeBytes .dec .invalid [0x03#8, 0x78#8] = .ok (.decDecode [0x78#8]) ∧
  decodeBytes .dec .invalid [0x04#8] = .ok .decEnd ∧
  decodeBytes .dec .invalid [0x05#8] = .ok .decClose ∧
  decodeBytes .dec .invalid [0xFF#8] = .error (.unknownCode 0xFF#8)

/-- 30_encoding R52: every configuration, written as a record and carried by `CONFIG`, is read back with every option at
every value the record admits, and the record has the length R52 gives. -/
def Obligations.ConfigRecordsRoundTrip : Prop :=
  ∀ (u : UnitId) (key : Key) (c : ConfigRecord),
    c.N ≤ lmax → c.T ≤ lmax → c.A ≤ lmax →
    c.extNonce.length = (if c.EXT then c.N else 0) →
    c.aad.length = (match u with | .enc => c.A | .dec => 0) →
    let payload := writeRecord u c
    (match u with
      | .enc => decode .enc (encode (.encConfig key payload)) = .ok (.encConfig key payload)
      | .dec => decode .dec (encode (.decConfig key payload)) = .ok (.decConfig key payload)) ∧
    readRecord u payload = c ∧
    payload.length = 13 + (if c.EXT then c.N else 0) + (match u with | .enc => c.A | .dec => 0) ∧
    recordFlags payload >>> 3 = 0#8

/-- 30_encoding R52: no bit of a well-formed record is dropped: what is read from it writes it again. -/
def Obligations.EveryRecordBitIsRead : Prop :=
  ∀ (u : UnitId) (payload : Bytes),
    13 ≤ payload.length → recordFlags payload >>> 3 = 0#8 →
    payload.length = (readRecord u payload).length u →
    writeRecord u (readRecord u payload) = payload

/-- 40_byte_utilities R60, R61: the big-endian length codec, byte by byte, with the rules' corner cases and examples. -/
def Obligations.LengthFieldCodec : Prop :=
  (∀ n : Nat, n ≤ 2 ^ 32 - 1 →
    (be32Enc n).map BitVec.toNat =
      [n / 2 ^ 24 % 256, n / 2 ^ 16 % 256, n / 2 ^ 8 % 256, n % 256]) ∧
  be32Enc 0 = [0x00#8, 0x00#8, 0x00#8, 0x00#8] ∧
  be32Enc (2 ^ 32 - 1) = [0xFF#8, 0xFF#8, 0xFF#8, 0xFF#8] ∧
  be32Enc 37 = [0x00#8, 0x00#8, 0x00#8, 0x25#8] ∧
  (∀ a b c d : Byte,
    be32Dec [a, b, c, d] = a.toNat * 2 ^ 24 + b.toNat * 2 ^ 16 + c.toNat * 2 ^ 8 + d.toNat ∧
    be32Dec [a, b, c, d] ≤ 2 ^ 32 - 1) ∧
  be32Dec [0x00#8, 0x00#8, 0x00#8, 0x00#8] = 0 ∧
  be32Dec [0x80#8, 0x00#8, 0x00#8, 0x00#8] = 2147483648 ∧
  be32Dec [0xFF#8, 0xFF#8, 0xFF#8, 0xFF#8] = 4294967295 ∧
  be32Dec [0x00#8, 0x00#8, 0x01#8, 0x00#8] = 256

/-- 40_byte_utilities R67: the laws of the utilities. -/
def Obligations.ByteUtilityLaws : Prop :=
  (∀ n : Nat, n ≤ 2 ^ 32 - 1 → be32Dec (be32Enc n) = n) ∧
  (∀ b : Bytes, b.length = 4 → be32Enc (be32Dec b) = b) ∧
  (∀ n m : Nat, n < m → m ≤ 2 ^ 32 - 1 → (be32Enc n).map BitVec.toNat < (be32Enc m).map BitVec.toNat) ∧
  (∀ n m : Nat, n ≤ 2 ^ 32 - 1 → m ≤ 2 ^ 32 - 1 → be32Enc n = be32Enc m → n = m) ∧
  (∀ a b : Bytes, (a ++ b).length = a.length + b.length ∧ slice (a ++ b) 0 a.length = a ∧
    slice (a ++ b) a.length (a ++ b).length = b) ∧
  (∀ (d : DecoderState) (chunk : Bytes) (n : Nat), n ≤ d.pending.length →
    ((d.accAppend chunk).accTake n).1 = (d.accTake n).1) ∧
  ∀ (d : DecoderState) (n m : Nat), n + m ≤ d.pending.length →
    (d.accTake n).1 ++ ((d.accTake n).2.accTake m).1 = (d.accTake (n + m)).1 ∧
    ((d.accTake n).2.accTake m).2 = (d.accTake (n + m)).2

/-- 40_byte_utilities R63 to R65: the three accesses that change the accumulator, and that they change nothing else. -/
def Obligations.AccumulatorAccesses : Prop :=
  ∀ (d : DecoderState) (chunk : Bytes) (n : Nat),
    d.accAppend chunk = { d with pending := d.pending ++ chunk } ∧
    d.accAppend [] = d ∧
    (∀ i, i < d.pending.length → (d.accAppend chunk).pending[i]? = d.pending[i]?) ∧
    (∀ i, (d.accAppend chunk).pending[d.pending.length + i]? = chunk[i]?) ∧
    (n ≤ d.pending.length →
      (d.accTake n).1.length = n ∧
      (d.accTake n).1 ++ (d.accTake n).2.pending = d.pending ∧
      (d.accTake n).2 = { d with pending := d.pending.drop n }) ∧
    (d.accTake d.pending.length).2.pending = [] ∧
    d.accTake 0 = ([], d) ∧
    d.accReset = { d with pending := [] }

/-- 42_frame_encoder R80: the issue step of `ENC.ENCODE` in `READY`: the size check in prefixed mode, then the request with
exactly the arguments of 41_aead_adapter R76. Nothing else of the state changes. The request's ticket is the model's own
bookkeeping (log 13). -/
def Obligations.EncodeIssueStep : Prop :=
  ∀ (s : State) (chunk : Bytes), s.enc.state = .ready →
    exec (.encEncode chunk) s = .next (
      if s.enc.LP = true ∧
          2 ^ 32 - 1 < 4 + (if s.enc.NIF then s.enc.N else 0) + chunk.length + s.enc.T / 8 + s.enc.aad.length then
        { s with
          enc := { s.enc with inflight := .none, fault := .framing, state := .halted }
          encPort := { s.encPort with sent := s.encPort.sent ++ [.response .eFraming] } }
      else
        { s with
          enc := { s.enc with inflight := .encReq, state := .cipher }
          encPort := { s.encPort with
            request := some (s.encPort.tickets,
              { op := .encrypt, data := chunk, key := s.enc.key, nonce := s.enc.currentNonce, aad := s.enc.aad,
                T := s.enc.T })
            tickets := s.encPort.tickets + 1 } })

/-- 42_frame_encoder R78: `ENC.ENCODE` completes. From `READY`, `exec` and then the adapter's reply, when a request was made,
lead to the state, the outputs and the response of the command as one piece, with one draw exactly when a frame was
emitted and the nonce is not pinned; all else of the machine is as before. -/
def Obligations.EncodeRunsToItsResponse : Prop :=
  ∀ (s : State) (chunk : Bytes), s.enc.state = .ready → s.enc.inflight = .none →
    ∃ (t t' : State) (moves : List Move),
      exec (.encEncode chunk) s = .next t ∧
      moves = (if t.enc.state = .cipher then [.reply .enc s.encPort.tickets] else []) ∧
      Host.Core.run core moves.length { t with schedule := moves } = .next t' ∧
      let w := encodeWhole Config.params (drawnBytes Config.params s.enc.N s) s.enc chunk
      t'.enc = w.state ∧
      t'.encPort.sent = s.encPort.sent ++ w.out.map .chunk ++ [.response w.response] ∧
      t'.draws = (if w.response = .ok ∧ s.enc.EXT = false then s.draws + 1 else s.draws) ∧
      t'.encPort.commands = s.encPort.commands ∧ t'.encPort.reads = s.encPort.reads ∧
      t'.dec = s.dec ∧ t'.decPort = s.decPort

/-- 42_frame_encoder R81, R83: the reply step on success, under any parameters: the frame, then the rotation (a draw of `N`
bytes unless pinned), then `READY` and `OK`. -/
def Obligations.EncodeReplyEmitsThenRotates : Prop :=
  ∀ (p : Params) (s : State) (rest : List Move) (k : Nat) (r : CipherRequest) (ctTag F : Bytes),
    s.schedule = .reply .enc k :: rest → s.enc.state = .cipher → s.encPort.request = some (k, r) →
    r.op = .encrypt → p.encrypt r.data r.key r.nonce r.aad r.T = some ctTag → assemble s.enc ctTag = some F →
    stepUnder p s = .next
      { s with
        schedule := rest
        enc := { s.enc with
          currentNonce := if s.enc.EXT then s.enc.currentNonce else (List.range s.enc.N).map (p.rng s.draws)
          inflight := .none
          state := .ready }
        draws := if s.enc.EXT then s.draws else s.draws + 1
        encPort := { s.encPort with
          request := none
          sent := s.encPort.sent ++ [.chunk F, .response .ok] } }

/-- 42_frame_encoder R82: the reply step on failure: nothing emitted, the nonce kept, `READY`, `E_CIPHER`; and the next
`ENCODE` that fits is encrypted under the same nonce. -/
def Obligations.CipherErrorKeepsTheNonce : Prop :=
  ∀ (p : Params) (s : State) (rest : List Move) (k : Nat) (r : CipherRequest),
    s.schedule = .reply .enc k :: rest → s.enc.state = .cipher → s.encPort.request = some (k, r) →
    r.op = .encrypt → p.encrypt r.data r.key r.nonce r.aad r.T = none →
    ∃ t, stepUnder p s = .next t ∧
      t = { s with
        schedule := rest
        enc := { s.enc with inflight := .none, state := .ready }
        encPort := { s.encPort with request := none, sent := s.encPort.sent ++ [.response .eCipher] } } ∧
      ∀ chunk : Bytes, (s.enc.LP = true → 4 + s.enc.W + chunk.length + s.enc.TB + s.enc.A ≤ lmax) →
        ∃ t' k' r', runWith p (.encEncode chunk) t = .next t' ∧ t'.encPort.request = some (k', r') ∧
          r'.nonce = s.enc.currentNonce ∧ r'.data = chunk

/-- 42_frame_encoder R79: `ASSEMBLE`, whole: the body, behind its length field in prefixed mode; it fails only in prefixed mode
and only when the actual frame would exceed `LMAX`, and then the reply step (42_frame_encoder R78 step 4) raises
`FramingError` by the entry sequence of 60_exceptions R115: the unit halts with nothing emitted and the nonce kept. -/
def Obligations.OversizeFramesAreNeverEmitted : Prop :=
  (∀ (e : EncoderState) (ctTag : Bytes),
    let body := (if e.NIF then e.currentNonce else []) ++ ctTag ++ e.aad
    (assemble e ctTag = none ↔ e.LP = true ∧ 2 ^ 32 - 1 < 4 + body.length) ∧
    (e.LP = true → 4 + body.length ≤ 2 ^ 32 - 1 → assemble e ctTag = some (be32Enc (4 + body.length) ++ body)) ∧
    (e.LP = false → assemble e ctTag = some body)) ∧
  ∀ (p : Params) (s : State) (rest : List Move) (k : Nat) (r : CipherRequest) (ctTag : Bytes),
    s.schedule = .reply .enc k :: rest → s.enc.state = .cipher → s.encPort.request = some (k, r) →
    r.op = .encrypt → p.encrypt r.data r.key r.nonce r.aad r.T = some ctTag → assemble s.enc ctTag = none →
    stepUnder p s = .next
      { s with
        schedule := rest
        enc := { s.enc with inflight := .none, fault := .framing, state := .halted }
        encPort := { s.encPort with request := none, sent := s.encPort.sent ++ [.response .eFraming] } }

/-- 42_frame_encoder R86 (a): every chunk that any step of the machine makes ENC emit in prefixed mode carries its own
length, under any adapter. -/
def Obligations.EmittedFramesCarryTheirLength : Prop :=
  ∀ (p : Params) (s t : State) (F : Bytes), stepUnder p s = .next t → s.enc.LP = true →
    .chunk F ∈ t.encPort.sent → .chunk F ∈ s.encPort.sent ∨ be32Dec (slice F 0 4) = F.length

/-- 43_frame_decoder R88, R89: exactly when the boundary detector answers what, in both modes. -/
def Obligations.BoundaryDetector : Prop :=
  ∀ d : DecoderState,
    let W := if d.NIF then d.N else 0
    let L := be32Dec (slice d.pending 0 4)
    let least := 4 + W + d.T / 8 + d.A
    (d.LP = true →
      (detect d = .wait ↔ d.pending.length < 4 ∨ least ≤ L ∧ d.pending.length < L) ∧
      (detect d = .malformed ↔ 4 ≤ d.pending.length ∧ L < least) ∧
      ∀ n, detect d = .frame n ↔ n = L ∧ 4 ≤ d.pending.length ∧ least ≤ L ∧ L ≤ d.pending.length) ∧
    (d.LP = false →
      (detect d = .wait ↔ d.pending = []) ∧
      (detect d = .malformed ↔ d.pending ≠ [] ∧ d.pending.length < W + d.T / 8 + d.A) ∧
      ∀ n, detect d = .frame n ↔ n = d.pending.length ∧ d.pending ≠ [] ∧ W + d.T / 8 + d.A ≤ d.pending.length)

/-- 43_frame_decoder R87 step 1: `DEC.DECODE` in `READY`, with a chunk that fits the capacity, appends the whole chunk and goes
to `SCAN`. Nothing else changes. -/
def Obligations.DecodeAppendsTheChunk : Prop :=
  ∀ (s : State) (chunk : Bytes), s.dec.state = .ready →
    (∀ cap, Config.pendingCap = some cap → s.dec.pending.length + chunk.length ≤ cap) →
    exec (.decDecode chunk) s = .next
      { s with dec := { s.dec with pending := s.dec.pending ++ chunk, state := .scan } }

/-- 20_memory R41, under any parameters: with an infinite capacity, or a chunk that fits, the append succeeds; with a finite
one that would be exceeded `pending` is left unchanged and `E_OVERFLOW` is raised, fatally. -/
def Obligations.FiniteCapacityOverflows : Prop :=
  ∀ (p : Params) (s : State) (chunk : Bytes), s.dec.state = .ready →
    ((p.pendingCap = none ∨ ∃ cap, p.pendingCap = some cap ∧ s.dec.pending.length + chunk.length ≤ cap) →
      runWith p (.decDecode chunk) s = .next
        { s with dec := { s.dec with pending := s.dec.pending ++ chunk, state := .scan } }) ∧
    ((∃ cap, p.pendingCap = some cap ∧ cap < s.dec.pending.length + chunk.length) →
      runWith p (.decDecode chunk) s = .next
        { s with
          dec := { s.dec with inflight := .none, fault := .overflow, state := .halted }
          decPort := { s.decPort with sent := s.decPort.sent ++ [.response .eOverflow] } })

/-- 43_frame_decoder R87: `DEC.DECODE` completes. From every state that meets the invariants with DEC in `READY`, `exec` and
then moves of DEC and of the adapter alone lead to the state, the outputs and the response of the command as one piece;
the encoder's side is untouched. -/
def Obligations.DecodeRunsToItsResponse : Prop :=
  ∀ (s : State) (chunk : Bytes), s.Inv Config.pendingCap → s.dec.state = .ready →
    ∃ (t t' : State) (moves : List Move),
      exec (.decDecode chunk) s = .next t ∧
      (∀ m ∈ moves, m = .unit .dec ∨ ∃ k, m = .reply .dec k) ∧
      Host.Core.run core moves.length { t with schedule := moves } = .next t' ∧
      let w := decodeWhole Config.params s.dec chunk
      t'.dec = w.state ∧
      t'.decPort.sent = s.decPort.sent ++ w.out.map .chunk ++ [.response w.response] ∧
      t'.decPort.commands = s.decPort.commands ∧ t'.decPort.reads = s.decPort.reads ∧
      t'.encSide = s.encSide ∧ t'.schedule = []

/-- 43_frame_decoder R87, R90, R92, R115: the three outcomes of a `SCAN` step: back to `READY` with `OK` and every byte kept;
halted with the offending bytes kept; or the frame taken off the head, parsed, its additional data latched, and exactly one
decrypt request made (its ticket is the model's own bookkeeping, log 13). -/
def Obligations.ScanStep : Prop :=
  ∀ (s : State) (rest : List Move), s.schedule = .unit .dec :: rest → s.dec.state = .scan →
    (detect s.dec = .wait →
      step s = .next { s with
        schedule := rest
        dec := { s.dec with state := .ready }
        decPort := { s.decPort with sent := s.decPort.sent ++ [.response .ok] } }) ∧
    (detect s.dec = .malformed →
      step s = .next { s with
        schedule := rest
        dec := { s.dec with inflight := .none, fault := .framing, state := .halted }
        decPort := { s.decPort with sent := s.decPort.sent ++ [.response .eFraming] } }) ∧
    ∀ n, detect s.dec = .frame n →
      let f := parse s.dec (s.dec.pending.take n)
      step s = .next { s with
        schedule := rest
        dec := { s.dec with pending := s.dec.pending.drop n, state := .cipher, inflight := .decReq f.aad }
        decPort := { s.decPort with
          request := some (s.decPort.tickets,
            { op := .decrypt, data := f.ctTag, key := s.dec.key, nonce := f.nonce, aad := f.aad, T := s.dec.T })
          tickets := s.decPort.tickets + 1 } }

/-- 43_frame_decoder R91: the parts of a frame the detector found: they lie end to end behind the header, the ciphertext has
at least the tag's bytes, and a pinned nonce takes no bytes of the wire. -/
def Obligations.ParsedPartsCoverTheFrame : Prop :=
  ∀ (d : DecoderState) (n : Nat), d.Configured → detect d = .frame n →
    let F := d.pending.take n
    let f := parse d F
    let H := if d.LP then 4 else 0
    let W := if d.NIF then d.N else 0
    F.length = n ∧ H + W + d.T / 8 + d.A ≤ n ∧
    F = F.take H ++ (if d.EXT then [] else f.nonce) ++ f.ctTag ++ f.aad ∧
    (d.EXT = true → f.nonce = d.extNonce) ∧ (d.EXT = false → f.nonce = slice F H (H + d.N)) ∧
    f.nonce.length = d.N ∧ f.aad.length = d.A ∧ f.ctTag.length = n - H - W - d.A ∧ d.T / 8 ≤ f.ctTag.length

/-- 43_frame_decoder R93: the reply step on success: one chunk, the plaintext followed by the latched additional data, and
back to `SCAN`; no response yet. -/
def Obligations.DecodeReplyEmitsPlaintextAndAad : Prop :=
  ∀ (p : Params) (s : State) (rest : List Move) (k : Nat) (r : CipherRequest) (aad plaintext : Bytes),
    s.schedule = .reply .dec k :: rest → s.dec.state = .cipher → s.dec.inflight = .decReq aad →
    s.decPort.request = some (k, r) → r.op = .decrypt →
    p.decrypt r.data r.key r.nonce r.aad r.T = some plaintext →
    stepUnder p s = .next
      { s with
        schedule := rest
        dec := { s.dec with inflight := .none, state := .scan }
        decPort := { s.decPort with
          request := none
          sent := s.decPort.sent ++ [.chunk (plaintext ++ aad)] } }

/-- 43_frame_decoder R94: the reply step on failure: nothing emitted, `E_AUTH` latched and answered, the unit halted with
`pending` beginning after the failed frame. -/
def Obligations.DecryptFailureHaltsTheDecoder : Prop :=
  ∀ (p : Params) (s : State) (rest : List Move) (k : Nat) (r : CipherRequest),
    s.schedule = .reply .dec k :: rest → s.dec.state = .cipher →
    s.decPort.request = some (k, r) → r.op = .decrypt →
    p.decrypt r.data r.key r.nonce r.aad r.T = none →
    stepUnder p s = .next
      { s with
        schedule := rest
        dec := { s.dec with inflight := .none, fault := .auth, state := .halted }
        decPort := { s.decPort with
          request := none
          sent := s.decPort.sent ++ [.response .eAuth] } }

/-- 43_frame_decoder R95: the loop always ends: fuel above the number of pending bytes is never used up, and every emitted
chunk used at least the smallest frame's bytes of `pending`. -/
def Obligations.DecodeLoopEnds : Prop :=
  ∀ (p : Params) (d : DecoderState) (fuel : Nat), d.Configured → d.pending.length < fuel →
    decodeLoop p fuel d = decodeLoop p (d.pending.length + 1) d ∧
    (decodeLoop p fuel d).out.length * (d.H + d.W + d.TB + d.A) + (decodeLoop p fuel d).state.pending.length
      ≤ d.pending.length ∧
    (decodeLoop p fuel d).state.state ≠ .scan ∧ (decodeLoop p fuel d).state.state ≠ .cipher

/-- 43_frame_decoder R97 (b), 20_memory R44: fragmentation invariance in prefixed mode. Any two ways of cutting the same
bytes give the same output chunks in order and the same fault; as long as no fatal error came, the same decoder. (After a
fatal error a later `DECODE` is not run, 44_config R109, so what `pending` holds then depends on the cut: log 23.) -/
def Obligations.FragmentationInvariance : Prop :=
  ∀ (p : Params) (d : DecoderState) (cut cut' : List Bytes),
    p.pendingCap = none → d.Configured → d.LP = true → d.state = .ready → d.inflight = .none → d.NoCompleteFrame →
    cut.flatten = cut'.flatten →
    (feed p d cut).2 = (feed p d cut').2 ∧
    (feed p d cut).1.fault = (feed p d cut').1.fault ∧
    (feed p d cut).1.state = (feed p d cut').1.state ∧
    ((feed p d cut).1.state = .ready → (feed p d cut).1 = (feed p d cut').1)

/-- 43_frame_decoder R97 (a): round trip, in all four layouts, for a matching pair under an adapter that obeys its named
laws: what ENC emits for `P`, a decoder at rest turns into the one chunk `P ++ aad`, and is at rest again. -/
def Obligations.RoundTrip : Prop :=
  ∀ (p : Params) (e e' : EncoderState) (d : DecoderState) (drawn P F : Bytes),
    AeadLen p → AeadRoundtrip p → p.pendingCap = none →
    e.Configured → d.Configured → Matches e d →
    d.state = .ready → d.inflight = .none → d.pending = [] →
    encodeWhole p drawn e P = ⟨e', [F], .ok⟩ →
    decodeWhole p d F = ⟨d, [P ++ e.aad], .ok⟩

/-- 43_frame_decoder R98: two frames in one payload yield the two plaintexts in order, and an incomplete rest of a third
stays buffered. -/
def Obligations.BatchedFramesAllDecode : Prop :=
  ∀ (p : Params) (e e' e'' : EncoderState) (d : DecoderState) (drawn drawn' P P' F F' tail : Bytes),
    AeadLen p → AeadRoundtrip p → p.pendingCap = none →
    e.Configured → drawn.length = e.N → d.Configured → Matches e d → e.LP = true →
    d.state = .ready → d.inflight = .none → d.pending = [] → tail.length < 4 →
    encodeWhole p drawn e P = ⟨e', [F], .ok⟩ → encodeWhole p drawn' e' P' = ⟨e'', [F'], .ok⟩ →
    decodeWhole p d (F ++ F' ++ tail) = ⟨{ d with pending := tail }, [P ++ e.aad, P' ++ e.aad], .ok⟩

/-- 43_frame_decoder R94, R99 (h): in prefixed mode a complete frame whose decryption fails ends the stream: nothing of it is
emitted, and nothing of the bytes after it is examined. -/
def Obligations.NothingAfterAFailedFrame : Prop :=
  ∀ (p : Params) (d : DecoderState) (F after : Bytes),
    p.pendingCap = none → d.LP = true → d.pending = [] →
    d.lmin ≤ F.length → be32Dec (slice F 0 4) = F.length →
    p.decrypt (parse d F).ctTag d.key (parse d F).nonce (parse d F).aad d.T = none →
    decodeWhole p d (F ++ after) =
      ⟨{ d with pending := after, inflight := .none, fault := .auth, state := .halted }, [], .eAuth⟩

/-- 44_config R101: `CONFIG` is accepted exactly when all eight conditions hold, and otherwise fails at the first that does
not. -/
def Obligations.ConfigChecks : Prop :=
  ∀ (u : UnitId) (key : Key) (payload : Bytes),
    let c := readRecord u payload
    let W := if c.NIF then c.N else 0
    let E := if c.EXT then c.N else 0
    let holds : Nat → Prop := fun i =>
      match i with
      | 1 => payload = [] ∨ 13 ≤ payload.length
      | 2 => recordFlags payload >>> 3 = 0#8
      | 3 => key ≠ .invalid
      | 4 => c.T % 8 = 0 ∧ 8 ≤ c.T
      | 5 => (c.NIF = true ∧ c.EXT = false) ∨ (c.NIF = false ∧ c.EXT = true) ∨
          (u = .enc ∧ c.NIF = true ∧ c.EXT = true)
      | 6 => 1 ≤ c.N
      | 7 => c.LP = true → 4 + W + c.T / 8 + c.A ≤ 2 ^ 32 - 1
      | 8 => payload = [] ∨ payload.length = 13 + E + (match u with | .enc => c.A | .dec => 0)
      | _ => True
    (firstFailure u key payload = none ↔ ∀ i, holds i) ∧
    ∀ i, firstFailure u key payload = some i ↔ 1 ≤ i ∧ i ≤ 8 ∧ ¬holds i ∧ ∀ j, j < i → holds j

/-- 44_config R100, R102: `ENC.CONFIG` completes in `OFF` when every check passes: the record is loaded, the first nonce is the
pinned one or a draw, `READY`, `OK`. Nothing else changes. -/
def Obligations.EncConfigLoadsTheRecord : Prop :=
  ∀ (s : State) (key : Key) (payload : Bytes), s.enc.state = .off → firstFailure .enc key payload = none →
    let c := readRecord .enc payload
    exec (.encConfig key payload) s = .next
      { s with
        enc :=
          { key := key, N := c.N,
            currentNonce := if c.EXT then c.extNonce else (List.range c.N).map (Config.rng s.draws),
            T := c.T, aad := c.aad, NIF := c.NIF, LP := c.LP, EXT := c.EXT,
            state := .ready, fault := .none, inflight := .none }
        draws := if c.EXT then s.draws else s.draws + 1
        encPort := { s.encPort with sent := s.encPort.sent ++ [.response .ok] } }

/-- 44_config R100, R103: `DEC.CONFIG` completes in `OFF` when every check passes: the record is loaded, `pending` is empty,
`READY`, `OK`. Without a pinned nonce `extNonce` is some string of `N` bytes, and the model's counter of such values
advances (log 6). Nothing else changes. -/
def Obligations.DecConfigLoadsTheRecord : Prop :=
  ∀ (s : State) (key : Key) (payload : Bytes), s.dec.state = .off → firstFailure .dec key payload = none →
    let c := readRecord .dec payload
    ∃ nonce : Bytes, nonce.length = c.N ∧ (c.EXT = true → nonce = c.extNonce) ∧
      exec (.decConfig key payload) s = .next
        { s with
          dec :=
            { key := key, N := c.N, EXT := c.EXT, extNonce := nonce, T := c.T, A := c.A, NIF := c.NIF, LP := c.LP,
              pending := [], state := .ready, fault := .none, inflight := .none }
          decPort := { s.decPort with
            sent := s.decPort.sent ++ [.response .ok]
            freeUses := if c.EXT then s.decPort.freeUses else s.decPort.freeUses + 1 } }

/-- 70_reset R126: the reset state, right after power-on, after `RST` in any phase, after `CLOSE` in every stable phase and,
but for `fault`, after a failed `CONFIG`: every field at its reset value, the nonce twelve bytes of any value; and the
registers then read as the table says. -/
def Obligations.ResetState : Prop :=
  let encReset (e : EncoderState) (fault : FaultCode) : Prop :=
    ∃ nonce : Bytes, nonce.length = 12 ∧
      e = { key := .invalid, N := 12, currentNonce := nonce, T := 128, aad := [], NIF := true, LP := true,
            EXT := false, state := .off, fault := fault, inflight := .none }
  let decReset (d : DecoderState) (fault : FaultCode) : Prop :=
    ∃ nonce : Bytes,
      d = { key := .invalid, N := 12, EXT := false, extNonce := nonce, T := 128, A := 0, NIF := true, LP := true,
            pending := [], state := .off, fault := fault, inflight := .none }
  encReset State.reset.enc .none ∧ decReset State.reset.dec .none ∧
  (∀ (s : State) (rest : List Move), s.schedule = .rst .enc :: rest →
    ∃ t, step s = .next t ∧ encReset t.enc .none) ∧
  (∀ (s : State) (rest : List Move), s.schedule = .rst .dec :: rest →
    ∃ t, step s = .next t ∧ decReset t.dec .none) ∧
  (∀ s : State, s.enc.state ≠ .cipher → ∃ t, exec .encClose s = .next t ∧ encReset t.enc .none) ∧
  (∀ s : State, s.dec.state ≠ .scan → s.dec.state ≠ .cipher →
    ∃ t, exec .decClose s = .next t ∧ decReset t.dec .none) ∧
  (∀ (s : State) (key : Key) (payload : Bytes), s.enc.state = .off → firstFailure .enc key payload ≠ none →
    ∃ t, exec (.encConfig key payload) s = .next t ∧ encReset t.enc .config) ∧
  (∀ (s : State) (key : Key) (payload : Bytes), s.dec.state = .off → firstFailure .dec key payload ≠ none →
    ∃ t, exec (.decConfig key payload) s = .next t ∧ decReset t.dec .config) ∧
  (∀ s : State, encReset s.enc .none → (List.range 6).map (s.rd .enc) = [0, 3, 12, 128, 0, 0]) ∧
  ∀ s : State, decReset s.dec .none → (List.range 6).map (s.rd .dec) = [0, 3, 12, 128, 0, 0]

/-- 44_config R100 step 2, R102: a failed `CONFIG` sends only `E_CONFIG`, draws nothing, makes no request and leaves the other
unit alone (the model's counter of free values advances, log 6). -/
def Obligations.FailedConfigConsumesNothing : Prop :=
  (∀ (s : State) (key : Key) (payload : Bytes), s.enc.state = .off → firstFailure .enc key payload ≠ none →
    ∃ t, exec (.encConfig key payload) s = .next t ∧ t.draws = s.draws ∧ t.decSide = s.decSide ∧
      t.schedule = s.schedule ∧
      t.encPort = { s.encPort with
        sent := s.encPort.sent ++ [.response .eConfig], freeUses := s.encPort.freeUses + 1 }) ∧
  ∀ (s : State) (key : Key) (payload : Bytes), s.dec.state = .off → firstFailure .dec key payload ≠ none →
    ∃ t, exec (.decConfig key payload) s = .next t ∧ t.encSide = s.encSide ∧ t.schedule = s.schedule ∧
      t.decPort = { s.decPort with
        sent := s.decPort.sent ++ [.response .eConfig], freeUses := s.decPort.freeUses + 1 }

/-- 44_config R104: `DEC.END` completes in `READY`: `ENDED` and `OK` when nothing is buffered, otherwise `E_TRUNC`, halted, with
`pending` kept; nothing is emitted and nothing else changes. -/
def Obligations.EndOfInput : Prop :=
  ∀ s : State, s.dec.state = .ready →
    (s.dec.pending = [] →
      exec .decEnd s = .next { s with
        dec := { s.dec with state := .ended }
        decPort := { s.decPort with sent := s.decPort.sent ++ [.response .ok] } }) ∧
    (s.dec.pending ≠ [] →
      exec .decEnd s = .next { s with
        dec := { s.dec with inflight := .none, fault := .trunc, state := .halted }
        decPort := { s.decPort with sent := s.decPort.sent ++ [.response .eTrunc] } })

/-- 44_config R104, 90_conflicts C13: truncation is never a successful decode. Feeding a non-empty strict prefix of a frame
in prefixed mode emits nothing and buffers it, and `DEC.END` then answers `E_TRUNC`. -/
def Obligations.TruncationIsSurfaced : Prop :=
  ∀ (p : Params) (d : DecoderState) (F : Bytes) (n : Nat),
    p.pendingCap = none → d.Configured → d.LP = true → d.state = .ready → d.inflight = .none → d.pending = [] →
    d.lmin ≤ F.length → be32Dec (slice F 0 4) = F.length → 0 < n → n < F.length →
    decodeWhole p d (F.take n) = ⟨{ d with pending := F.take n }, [], .ok⟩ ∧
    ∀ s : State, s.dec = { d with pending := F.take n } →
      exec .decEnd s = .next { s with
        dec := { s.dec with inflight := .none, fault := .trunc, state := .halted }
        decPort := { s.decPort with sent := s.decPort.sent ++ [.response .eTrunc] } }

/-- 44_config R105, R106: `CLOSE` completes in every stable phase of its unit, `HALTED` and `OFF` included: response `OK`,
nothing emitted, key gone, `pending` discarded, phase `OFF`; the rest of the machine is as before (the model's counter of
free values advances, log 6). -/
def Obligations.CloseDestroysTheInstance : Prop :=
  (∀ s : State, s.enc.state ≠ .cipher →
    ∃ t, exec .encClose s = .next t ∧
      t.enc.key = .invalid ∧ t.enc.aad = [] ∧ t.enc.fault = .none ∧ t.enc.state = .off ∧ t.enc.inflight = .none ∧
      t.encPort = { s.encPort with
        sent := s.encPort.sent ++ [.response .ok], freeUses := s.encPort.freeUses + 1 } ∧
      t.draws = s.draws ∧ t.schedule = s.schedule ∧ t.decSide = s.decSide) ∧
  ∀ s : State, s.dec.state ≠ .scan → s.dec.state ≠ .cipher →
    ∃ t, exec .decClose s = .next t ∧
      t.dec.key = .invalid ∧ t.dec.pending = [] ∧ t.dec.fault = .none ∧ t.dec.state = .off ∧ t.dec.inflight = .none ∧
      t.decPort = { s.decPort with
        sent := s.decPort.sent ++ [.response .ok], freeUses := s.decPort.freeUses + 1 } ∧
      t.schedule = s.schedule ∧ t.encSide = s.encSide

/-- 44_config R107, R109, R110: every entry of the phase table that is not "run": the command answers `E_REJECTED`, or the
latched code when the unit is halted, and changes nothing else. -/
def Obligations.CommandsOutOfPhase : Prop :=
  (∀ (i : Instr) (s : State), i.unit = .enc → i ≠ .encClose →
    (s.enc.state = .off ∧ (∀ k b, i ≠ .encConfig k b) ∨ s.enc.state = .ready ∧ (∀ b, i ≠ .encEncode b) →
      exec i s = .next { s with
        encPort := { s.encPort with sent := s.encPort.sent ++ [.response .eRejected] } }) ∧
    (s.enc.state = .halted →
      exec i s = .next { s with
        encPort := { s.encPort with sent := s.encPort.sent ++ [.response s.enc.fault.response] } })) ∧
  ∀ (i : Instr) (s : State), i.unit = .dec → i ≠ .decClose →
    (s.dec.state = .off ∧ (∀ k b, i ≠ .decConfig k b) ∨
        s.dec.state = .ready ∧ (∃ k b, i = .decConfig k b) ∨ s.dec.state = .ended →
      exec i s = .next { s with
        decPort := { s.decPort with sent := s.decPort.sent ++ [.response .eRejected] } }) ∧
    (s.dec.state = .halted →
      exec i s = .next { s with
        decPort := { s.decPort with sent := s.decPort.sent ++ [.response s.dec.fault.response] } })

/-- 44_config R107: while a unit is in `SCAN` or `CIPHER` its port accepts nothing: given a command, `exec` leaves it waiting,
first in the queue (log 17), and nothing else changes. -/
def Obligations.BusyPortHoldsTheCommand : Prop :=
  ∀ (i : Instr) (s : State), s.busy i.unit = true →
    exec i s = .next (match i.unit with
      | .enc => { s with encPort := { s.encPort with commands := encode i :: s.encPort.commands } }
      | .dec => { s with decPort := { s.decPort with commands := encode i :: s.decPort.commands } })

/-- 44_config R108: a unit in a stable phase, `HALTED` included, answers an unknown code with `E_REJECTED` and nothing else
changes but that the command has left the port. -/
def Obligations.UnknownCodesAreRejected : Prop :=
  (∀ (s : State) (rest : List Move) (c : Command) (waiting : List Command),
    s.schedule = .unit .enc :: rest → s.enc.state ≠ .cipher → s.encPort.commands = c :: waiting →
    c.code ≠ 0x01#8 → c.code ≠ 0x02#8 → c.code ≠ 0x05#8 →
    step s = .next { s with
      schedule := rest
      encPort := { s.encPort with commands := waiting, sent := s.encPort.sent ++ [.response .eRejected] } }) ∧
  ∀ (s : State) (rest : List Move) (c : Command) (waiting : List Command),
    s.schedule = .unit .dec :: rest → s.dec.state ≠ .scan → s.dec.state ≠ .cipher →
    s.decPort.commands = c :: waiting →
    c.code ≠ 0x01#8 → c.code ≠ 0x03#8 → c.code ≠ 0x04#8 → c.code ≠ 0x05#8 →
    step s = .next { s with
      schedule := rest
      decPort := { s.decPort with commands := waiting, sent := s.decPort.sent ++ [.response .eRejected] } }

/-- 44_config R109: nothing but `CLOSE` or `RST` leaves `HALTED`: any other step keeps the whole state record of a halted unit
and emits no output chunk from it. -/
def Obligations.HaltedUnitsStayHalted : Prop :=
  (∀ s t : State, step s = .next t → s.enc.state = .halted →
    (t.enc = s.enc ∧ chunksOf t.encPort.sent = chunksOf s.encPort.sent ∧ t.encPort.request = s.encPort.request) ∨
    s.schedule.head? = some (.rst .enc) ∨
    (s.schedule.head? = some (.unit .enc) ∧ (s.encPort.commands.head?.map Command.code) = some 0x05#8)) ∧
  ∀ s t : State, step s = .next t → s.dec.state = .halted →
    (t.dec = s.dec ∧ chunksOf t.decPort.sent = chunksOf s.decPort.sent ∧ t.decPort.request = s.decPort.request) ∨
    s.schedule.head? = some (.rst .dec) ∨
    (s.schedule.head? = some (.unit .dec) ∧ (s.decPort.commands.head?.map Command.code) = some 0x05#8)

/-- 44_config R111: the phase transitions: every step keeps the phase of each unit or makes one of the listed changes. -/
def Obligations.PhaseTransitions : Prop :=
  ∀ s t : State, step s = .next t →
    (t.enc.state = s.enc.state ∨ t.enc.state = .off ∨
      (s.enc.state, t.enc.state) ∈
        [(EncPhase.off, EncPhase.ready), (.ready, .halted), (.ready, .cipher), (.cipher, .ready), (.cipher, .halted)]) ∧
    (t.dec.state = s.dec.state ∨ t.dec.state = .off ∨
      (s.dec.state, t.dec.state) ∈
        [(DecPhase.off, DecPhase.ready), (.ready, .halted), (.ready, .scan), (.scan, .ready), (.scan, .halted),
          (.scan, .cipher), (.cipher, .scan), (.cipher, .halted), (.ready, .ended)])

/-- 60_exceptions R115: at every step that halts a unit: the latch is cleared, a fatal code is latched, the step's last item
sent is the response with that code, and the configuration and (on ENC) the nonce are kept; `pending` is kept too. -/
def Obligations.FatalErrorEntry : Prop :=
  (∀ s t : State, step s = .next t → s.enc.state ≠ .halted → t.enc.state = .halted →
    t.enc.inflight = .none ∧ t.enc.fault = .framing ∧
    t.encPort.sent = s.encPort.sent ++ [.response .eFraming] ∧
    t.enc.configuration = s.enc.configuration ∧ t.enc.currentNonce = s.enc.currentNonce) ∧
  ∀ s t : State, step s = .next t → s.dec.state ≠ .halted → t.dec.state = .halted →
    t.dec.inflight = .none ∧
    (t.dec.fault, s.dec.state) ∈
      [(FaultCode.auth, DecPhase.cipher), (.framing, .scan), (.trunc, .ready), (.overflow, .ready)] ∧
    t.decPort.sent = s.decPort.sent ++ [.response t.dec.fault.response] ∧
    t.dec.configuration = s.dec.configuration ∧ t.dec.pending = s.dec.pending

/-- 10_state R25: the fault code is sticky: once nonzero it changes only as the unit is closed, reset or, from `OFF`,
configured. -/
def Obligations.FaultIsSticky : Prop :=
  ∀ s t : State, s.Inv Config.pendingCap → step s = .next t →
    (s.enc.fault ≠ .none → t.enc.fault = s.enc.fault ∨ t.enc.state = .off ∨ s.enc.state = .off) ∧
    (s.dec.fault ≠ .none → t.dec.fault = s.dec.fault ∨ t.dec.state = .off ∨ s.dec.state = .off)

/-- 70_reset R125: `RST` takes effect at once in any phase: the unit is `OFF`, a command in progress gets no response and no
further output, the outstanding request is forgotten, what was emitted stands, and a reply to the forgotten request that
comes next is ignored. The other unit is untouched. That waiting commands stay at the port is the model's, log 11. -/
def Obligations.ResetInput : Prop :=
  (∀ (s : State) (rest : List Move), s.schedule = .rst .enc :: rest →
    ∃ t, step s = .next t ∧ t.enc.state = .off ∧ t.enc.inflight = .none ∧
      t.encPort = { s.encPort with request := none, freeUses := s.encPort.freeUses + 1 } ∧
      t.draws = s.draws ∧ t.decSide = s.decSide ∧ t.schedule = rest ∧
      ∀ k more, step { t with schedule := .reply .enc k :: more } = .next { t with schedule := more }) ∧
  ∀ (s : State) (rest : List Move), s.schedule = .rst .dec :: rest →
    ∃ t, step s = .next t ∧ t.dec.state = .off ∧ t.dec.inflight = .none ∧ t.dec.pending = [] ∧
      t.decPort = { s.decPort with request := none, freeUses := s.decPort.freeUses + 1 } ∧
      t.encSide = s.encSide ∧ t.schedule = rest ∧
      ∀ k more, step { t with schedule := .reply .dec k :: more } = .next { t with schedule := more }

/-- 70_reset R125, 93_implementation_defined U20: a reply to a request that `RST` made a unit forget is ignored however late it
comes, whatever has happened since (log 13). -/
def Obligations.LateRepliesAreIgnored : Prop :=
  ∀ (s t t' : State) (u : UnitId) (rest moves more : List Move) (k n : Nat) (r : CipherRequest),
    s.Inv Config.pendingCap → s.schedule = .rst u :: rest → (s.port u).request = some (k, r) →
    step s = .next t →
    Host.Core.run core n { t with schedule := moves } = .next t' →
    step { t' with schedule := .reply u k :: more } = .next { t' with schedule := more }

/-- 41_aead_adapter R75: without the reply and without `RST` a unit in `CIPHER` stays there for ever: whatever the agents do
otherwise, its record is unchanged and it sends nothing; no command, not even `CLOSE`, is accepted. -/
def Obligations.OnlyTheReplyOrResetEndsCipher : Prop :=
  (∀ (s t : State) (moves : List Move) (k n : Nat) (r : CipherRequest),
    s.enc.state = .cipher → s.encPort.request = some (k, r) →
    .reply .enc k ∉ moves → .rst .enc ∉ moves →
    Host.Core.run core n { s with schedule := moves } = .next t →
    t.enc = s.enc ∧ t.encPort.sent = s.encPort.sent ∧ s.encPort.commands <+: t.encPort.commands) ∧
  ∀ (s t : State) (moves : List Move) (k n : Nat) (r : CipherRequest),
    s.dec.state = .cipher → s.decPort.request = some (k, r) →
    .reply .dec k ∉ moves → .rst .dec ∉ moves →
    Host.Core.run core n { s with schedule := moves } = .next t →
    t.dec = s.dec ∧ t.decPort.sent = s.decPort.sent ∧ s.decPort.commands <+: t.decPort.commands

/-- 44_config R107, 00_scope R8: a command the host offers waits at its port; nothing else changes. The spec says so of the
phases in which the port accepts nothing. The model's own is the rest: that the command also waits in a stable phase until the
unit's next move (log 2, log 11), and that the queue is served oldest first and has no bound (log 11). -/
def Obligations.OfferedCommandsWait : Prop :=
  (∀ (s : State) (rest : List Move) (c : Command), s.schedule = .offer .enc c :: rest →
    step s = .next { s with
      schedule := rest, encPort := { s.encPort with commands := s.encPort.commands ++ [c] } }) ∧
  ∀ (s : State) (rest : List Move) (c : Command), s.schedule = .offer .dec c :: rest →
    step s = .next { s with
      schedule := rest, decPort := { s.decPort with commands := s.decPort.commands ++ [c] } }

/-- A step runs the decoded command: when a unit in a stable phase moves and the first waiting command decodes to one its
port can carry, the step is `exec` of it, with that move and that command taken. -/
def Obligations.StepRunsTheDecodedCommand : Prop :=
  (∀ (s : State) (rest : List Move) (c : Command) (waiting : List Command) (i : Instr),
    s.schedule = .unit .enc :: rest → s.busy .enc = false → s.encPort.commands = c :: waiting →
    decode .enc c = .ok i → i.wellFormed Config.maxChunk = true →
    step s = exec i { s with schedule := rest, encPort := { s.encPort with commands := waiting } }) ∧
  ∀ (s : State) (rest : List Move) (c : Command) (waiting : List Command) (i : Instr),
    s.schedule = .unit .dec :: rest → s.busy .dec = false → s.decPort.commands = c :: waiting →
    decode .dec c = .ok i → i.wellFormed Config.maxChunk = true →
    step s = exec i { s with schedule := rest, decPort := { s.decPort with commands := waiting } }

/-- The machine always goes on: under any parameters a step answers a next state, or a unit was handed a chunk longer than a
finite `MAX_CHUNK`, which its port cannot carry (log 9); it never refuses. -/
def Obligations.OnlyOversizeChunksStop : Prop :=
  ∀ (p : Params) (s : State),
    (∃ t, stepUnder p s = .next t) ∨
    stepUnder p s = .fault .chunkExceedsPort ∧
      ∃ u c waiting chunk most, (s.port u).commands = c :: waiting ∧ p.maxChunk = some most ∧ most < chunk.length ∧
        (decode u c = .ok (.encEncode chunk) ∨ decode u c = .ok (.decDecode chunk))

/-- The machine of `step` is the machine under the parameters of Config. -/
def Obligations.StepIsTheMachineUnderConfig : Prop :=
  ∀ (i : Instr) (s : State), exec i s = runWith Config.params i s ∧ step s = stepUnder Config.params s
end

