-- ==== Sys2Proof/Laws/State.lean ====
section
/-! SUPPORT. What each shared update leaves alone and what it writes, one field at a time, so that no later proof unfolds a
record update. -/

namespace Sys2Proof.Machine

@[simp] theorem port_enc (s : State) : s.port .enc = s.encPort := rfl
@[simp] theorem port_dec (s : State) : s.port .dec = s.decPort := rfl
@[simp] theorem setPort_enc_unit (s : State) (q : Port) : s.setPort .enc q = { s with encPort := q } := rfl
@[simp] theorem setPort_dec_unit (s : State) (q : Port) : s.setPort .dec q = { s with decPort := q } := rfl

@[simp] theorem setPort_enc (s : State) (u : UnitId) (q : Port) : (s.setPort u q).enc = s.enc := by cases u <;> rfl
@[simp] theorem setPort_dec (s : State) (u : UnitId) (q : Port) : (s.setPort u q).dec = s.dec := by cases u <;> rfl
@[simp] theorem setPort_draws (s : State) (u : UnitId) (q : Port) : (s.setPort u q).draws = s.draws := by cases u <;> rfl
@[simp] theorem setPort_schedule (s : State) (u : UnitId) (q : Port) : (s.setPort u q).schedule = s.schedule := by
  cases u <;> rfl
@[simp] theorem port_setPort (s : State) (u : UnitId) (q : Port) : (s.setPort u q).port u = q := by cases u <;> rfl

@[simp] theorem emit_enc_unit (b : Bytes) (s : State) :
    emit .enc b s = { s with encPort := { s.encPort with sent := s.encPort.sent ++ [.chunk b] } } := rfl
@[simp] theorem emit_dec_unit (b : Bytes) (s : State) :
    emit .dec b s = { s with decPort := { s.decPort with sent := s.decPort.sent ++ [.chunk b] } } := rfl
@[simp] theorem respond_enc_unit (r : Response) (s : State) :
    respond .enc r s = { s with encPort := { s.encPort with sent := s.encPort.sent ++ [.response r] } } := rfl
@[simp] theorem respond_dec_unit (r : Response) (s : State) :
    respond .dec r s = { s with decPort := { s.decPort with sent := s.decPort.sent ++ [.response r] } } := rfl

@[simp] theorem spendFree_enc_unit (s : State) :
    spendFree .enc s = { s with encPort := { s.encPort with freeUses := s.encPort.freeUses + 1 } } := rfl
@[simp] theorem spendFree_dec_unit (s : State) :
    spendFree .dec s = { s with decPort := { s.decPort with freeUses := s.decPort.freeUses + 1 } } := rfl
@[simp] theorem clearRequest_enc_unit (s : State) :
    clearRequest .enc s = { s with encPort := { s.encPort with request := none } } := rfl
@[simp] theorem clearRequest_dec_unit (s : State) :
    clearRequest .dec s = { s with decPort := { s.decPort with request := none } } := rfl
@[simp] theorem issueRequest_enc_unit (r : CipherRequest) (s : State) :
    issueRequest .enc r s = { s with
      encPort := { s.encPort with
        request := some (s.encPort.tickets, r), tickets := s.encPort.tickets + 1 } } := rfl
@[simp] theorem issueRequest_dec_unit (r : CipherRequest) (s : State) :
    issueRequest .dec r s = { s with
      decPort := { s.decPort with
        request := some (s.decPort.tickets, r), tickets := s.decPort.tickets + 1 } } := rfl

@[simp] theorem accAppend_pending (d : DecoderState) (b : Bytes) : (d.accAppend b).pending = d.pending ++ b := rfl
@[simp] theorem accReset_pending (d : DecoderState) : d.accReset.pending = [] := rfl

@[simp] theorem unspecifiedBytes_length (p : Params) (u : UnitId) (n : Nat) (s : State) :
    (unspecifiedBytes p u n s).length = n := by simp [unspecifiedBytes]
@[simp] theorem drawnBytes_length (p : Params) (n : Nat) (s : State) : (drawnBytes p n s).length = n := by
  simp [drawnBytes]

end Sys2Proof.Machine
end

