-- ==== Sys2Proof/Laws/Ops.lean ====
section
/-! SUPPORT. One lemma per shared operation that says once everything it can do; proofs cite these instead of unfolding. -/

namespace Sys2Proof.Machine

theorem allows_iff (cap : Capacity) (n : Nat) : cap.allows n = true ↔ ∀ c, cap = some c → n ≤ c := by
  cases n <;> cases cap <;> simp [Capacity.allows]

theorem slice_zero (b : Bytes) (n : Nat) : slice b 0 n = b.take n := by simp [slice]

theorem slice_to_end (b : Bytes) (n : Nat) : slice b n b.length = b.drop n := by simp [slice]

theorem slice_length (b : Bytes) (i j : Nat) (h : j ≤ b.length) : (slice b i j).length = j - i := by
  simp [slice, Nat.min_eq_left h]

/-- The sequence of 60_exceptions R115 on ENC, whole. -/
@[simp] theorem raiseFatal_enc (x : FatalError) (s : State) :
    raiseFatal .enc x s = { s with
      enc := { s.enc with inflight := .none, fault := x.fault, state := .halted }
      encPort := { s.encPort with sent := s.encPort.sent ++ [.response x.fault.response] } } := rfl

/-- The sequence of 60_exceptions R115 on DEC, whole. -/
@[simp] theorem raiseFatal_dec (x : FatalError) (s : State) :
    raiseFatal .dec x s = { s with
      dec := { s.dec with inflight := .none, fault := x.fault, state := .halted }
      decPort := { s.decPort with sent := s.decPort.sent ++ [.response x.fault.response] } } := rfl

@[simp] theorem reject_enc (s : State) :
    reject .enc s = { s with encPort := { s.encPort with sent := s.encPort.sent ++ [.response .eRejected] } } := rfl

@[simp] theorem reject_dec (s : State) :
    reject .dec s = { s with decPort := { s.decPort with sent := s.decPort.sent ++ [.response .eRejected] } } := rfl

@[simp] theorem respondLatched_enc (s : State) :
    respondLatched .enc s =
      { s with encPort := { s.encPort with sent := s.encPort.sent ++ [.response s.enc.fault.response] } } := rfl

@[simp] theorem respondLatched_dec (s : State) :
    respondLatched .dec s =
      { s with decPort := { s.decPort with sent := s.decPort.sent ++ [.response s.dec.fault.response] } } := rfl

/-- Back to the reset state of ENC: the spec's values around twelve free bytes. -/
@[simp] theorem resetUnit_enc (p : Params) (s : State) :
    resetUnit p .enc s = { s with
      enc := EncoderState.resetWith (unspecifiedBytes p .enc 12 s)
      encPort := { s.encPort with freeUses := s.encPort.freeUses + 1 } } := rfl

/-- Back to the reset state of DEC: the spec's values around twelve free bytes. -/
@[simp] theorem resetUnit_dec (p : Params) (s : State) :
    resetUnit p .dec s = { s with
      dec := DecoderState.resetWith (unspecifiedBytes p .dec 12 s)
      decPort := { s.decPort with freeUses := s.decPort.freeUses + 1 } } := rfl

theorem accTake_eq (d : DecoderState) (n : Nat) :
    d.accTake n = (d.pending.take n, { d with pending := d.pending.drop n }) := by
  simp [DecoderState.accTake, slice_zero, slice_to_end]

/-- `ASSEMBLE`, when it answers: the header and the body, and in prefixed mode a length the field can carry. -/
theorem assemble_some {e : EncoderState} {ctTag F : Bytes} (h : assemble e ctTag = some F) :
    F = (if e.LP then be32Enc (4 + (e.body ctTag).length) else []) ++ e.body ctTag ∧
      (e.LP = true → 4 + (e.body ctTag).length ≤ lmax) := by
  unfold assemble at h
  split at h
  · rename_i hlp
    split at h
    · cases h
    · rename_i hle
      cases h
      simp [hlp]
      omega
  · rename_i hlp
    cases h
    simp [hlp]

@[simp] theorem be32Enc_length (n : Nat) : (be32Enc n).length = 4 := rfl

/-- What a detected frame is: in the buffer, and long enough to be parsed. -/
theorem detect_frame {d : DecoderState} {n : Nat} (h : detect d = .frame n) :
    n ≤ d.pending.length ∧ d.H + d.W + d.TB + d.A ≤ n ∧
      (d.LP = true → n = be32Dec (slice d.pending 0 4) ∧ 4 ≤ d.pending.length) ∧
      (d.LP = false → n = d.pending.length ∧ n ≠ 0) := by
  unfold detect at h
  split at h
  · rename_i hlp
    split at h
    · cases h
    · split at h
      · cases h
      · split at h
        · cases h
        · cases h
          simp_all [DecoderState.H, DecoderState.lmin]
  · rename_i hlp
    split at h
    · cases h
    · split at h
      · cases h
      · cases h
        simp_all [DecoderState.H]

/-- When the detector waits the decoder is at rest: no complete frame is pending. -/
theorem detect_wait {d : DecoderState} (h : detect d = .wait) :
    (d.LP = true → d.pending.length < 4 ∨
      4 ≤ d.pending.length ∧ d.lmin ≤ be32Dec (slice d.pending 0 4) ∧
        d.pending.length < be32Dec (slice d.pending 0 4)) ∧
    (d.LP = false → d.pending = []) := by
  unfold detect at h
  split at h
  · rename_i hl
    refine ⟨fun _ => ?_, fun hf => by simp [hl] at hf⟩
    split at h
    · exact .inl ‹_›
    · split at h
      · cases h
      · split at h
        · exact .inr ⟨by omega, by omega, ‹_›⟩
        · cases h
  · rename_i hl
    refine ⟨fun ht => absurd ht hl, fun _ => ?_⟩
    split at h
    · exact List.length_eq_zero_iff.1 ‹_›
    · split at h <;> cases h

/-- `detect` reads the configuration and `pending` alone. -/
theorem detect_congr {d d' : DecoderState} (hc : (d.LP, d.NIF, d.N, d.T, d.A) = (d'.LP, d'.NIF, d'.N, d'.T, d'.A))
    (hp : d.pending = d'.pending) : detect d = detect d' := by
  cases d
  cases d'
  simp only [Prod.mk.injEq] at hc
  obtain ⟨rfl, rfl, rfl, rfl, rfl⟩ := hc
  cases hp
  rfl

/-- The issue step when the size check refuses. -/
theorem encIssue_tooLong {chunk : Bytes} {s : State} (h : s.enc.LP = true ∧ lmax < s.enc.frameLength chunk) :
    encIssue chunk s = raiseFatal .enc .framing s := if_pos (by simpa using h)

/-- The issue step when the request is made. -/
theorem encIssue_fits {chunk : Bytes} {s : State} (h : ¬(s.enc.LP = true ∧ lmax < s.enc.frameLength chunk)) :
    encIssue chunk s = { s with
      enc := { s.enc with state := .cipher, inflight := .encReq }
      encPort := { s.encPort with
        request := some (s.encPort.tickets, s.enc.request chunk), tickets := s.encPort.tickets + 1 } } :=
  (if_neg (by simpa using h) : encIssue chunk s = _)

theorem encEncode_ready {chunk : Bytes} {s : State} (h : s.enc.state = .ready) : encEncode chunk s = encIssue chunk s := by
  simp only [encEncode, h]

theorem decEnd_ready {s : State} (h : s.dec.state = .ready) : decEnd s = decEndRun s := by
  simp only [decEnd, h]

theorem decEndRun_clean {s : State} (h : s.dec.pending = []) :
    decEndRun s = respond .dec .ok { s with dec := { s.dec with state := .ended } } :=
  if_pos (List.length_eq_zero_iff.2 h)

theorem decEndRun_left {s : State} (h : s.dec.pending ≠ []) : decEndRun s = raiseFatal .dec .trunc s :=
  if_neg fun hl => h (List.length_eq_zero_iff.1 hl)

/-- The reply step of ENC when a frame is emitted. -/
theorem encReply_framed (p : Params) {ctTag F : Bytes} {s : State} (h : assemble s.enc ctTag = some F) :
    encReply p (some ctTag) s = encFinish .ok (rotate p (emit .enc F s)) := by simp only [encReply, h]

theorem rotate_pinned (p : Params) {s : State} (h : s.enc.EXT = true) : rotate p s = s := if_pos h

theorem rotate_drawn (p : Params) {s : State} (h : s.enc.EXT ≠ true) :
    rotate p s =
      { s with enc := { s.enc with currentNonce := drawnBytes p s.enc.N s }, draws := s.draws + 1 } := if_neg h

/-- Every meaning is `runWith` under the parameters of Config, and it answers a next state. -/
theorem exec_eq_runWith (i : Instr) (s : State) : exec i s = runWith Config.params i s := by cases i <;> rfl

theorem runWith_next (p : Params) (i : Instr) (s : State) : ∃ t, runWith p i s = .next t := by
  cases i <;> exact ⟨_, rfl⟩

/-- Taking a command: nothing waits; the code is unknown; the command is run; or its chunk exceeds the port. -/
theorem acceptCommand_cases (p : Params) (run : Instr → State → Host.Outcome State Fault Refusal) (u : UnitId) (s : State) :
    ((s.port u).commands = [] ∧ acceptCommand p run u s = .next s) ∨
    ∃ c waiting, (s.port u).commands = c :: waiting ∧
      ((∃ e, decode u c = .error e ∧
          acceptCommand p run u s = .next (reject u (s.setPort u { s.port u with commands := waiting }))) ∨
       ∃ i, decode u c = .ok i ∧
        ((i.wellFormed p.maxChunk = true ∧
            acceptCommand p run u s = run i (s.setPort u { s.port u with commands := waiting })) ∨
         (i.wellFormed p.maxChunk = false ∧ acceptCommand p run u s = .fault .chunkExceedsPort))) := by
  cases hc : (s.port u).commands with
  | nil => exact .inl ⟨rfl, by simp [acceptCommand, hc]⟩
  | cons c waiting =>
    refine .inr ⟨c, waiting, rfl, ?_⟩
    cases hd : decode u c with
    | error e => exact .inl ⟨e, rfl, by simp [acceptCommand, hc, hd]⟩
    | ok i =>
      refine .inr ⟨i, rfl, ?_⟩
      cases hw : i.wellFormed p.maxChunk with
      | true => exact .inl ⟨rfl, by simp [acceptCommand, hc, hd, hw]⟩
      | false => exact .inr ⟨rfl, by simp [acceptCommand, hc, hd, hw]⟩

/-- The command a port decodes is one of its own unit. -/
theorem decode_unit {u : UnitId} {c : Command} {i : Instr} (h : decode u c = .ok i) : i.unit = u := by
  unfold decode at h
  split at h <;> simp_all [Instr.unit] <;> subst h <;> rfl

@[simp] theorem stepWith_nil (p : Params) (run : Instr → State → Host.Outcome State Fault Refusal) (s : State)
    (h : s.schedule = []) : stepWith p run s = .next s := by simp [stepWith, h]

@[simp] theorem stepWith_cons (p : Params) (run : Instr → State → Host.Outcome State Fault Refusal) (s : State) (m : Move)
    (rest : List Move) (h : s.schedule = m :: rest) :
    stepWith p run s = moveWith p run m { s with schedule := rest } := by simp [stepWith, h]

end Sys2Proof.Machine
end

