-- ==== Sys2Proof/Laws/PerInstr.lean ====
section
/-! SUPPORT. What holds of every command as syntax, one lemma per constructor: its transaction decodes to it on its own
unit's port. -/

namespace Sys2Proof.Laws.RoundTrip

/-- The command's transaction is read back as the command on its unit's port (30_encoding R50, R51). -/
def Statement (i : Instr) : Prop :=
  decode i.unit (encode i) = .ok i

theorem encConfig (key : Key) (payload : Bytes) : Statement (.encConfig key payload) := rfl
theorem decConfig (key : Key) (payload : Bytes) : Statement (.decConfig key payload) := rfl
theorem encEncode (chunk : Bytes) : Statement (.encEncode chunk) := rfl
theorem decDecode (chunk : Bytes) : Statement (.decDecode chunk) := rfl
theorem decEnd : Statement .decEnd := rfl
theorem encClose : Statement .encClose := rfl
theorem decClose : Statement .decClose := rfl

end Sys2Proof.Laws.RoundTrip
end

