-- ==== Sys2Proof/Laws/Step.lean ====
section
/-! SUPPORT. Everything a step can do, said once: `EncEffect` lists what a step about ENC can be, `DecEffect` what a step
about DEC can be, and `stepUnder_effect` says that every step is one of them. Whole-machine claims follow by cases. -/

namespace Sys2Proof.Machine

/-- What a step about ENC can be. `rest` is the schedule after it. -/
inductive EncEffect (p : Params) (s : State) (rest : List Move) : State → Prop where
  /-- Nothing: an empty schedule or port, a unit waiting in `CIPHER`, an ignored reply. -/
  | idle : EncEffect p s rest { s with schedule := rest }
  /-- The host offers a command. -/
  | offered (c : Command) (hm : s.schedule.head? = some (.offer .enc c)) :
      EncEffect p s rest
        { s with schedule := rest, encPort := { s.encPort with commands := s.encPort.commands ++ [c] } }
  /-- The host reads a register. -/
  | read (i v : Nat) (hm : s.schedule.head? = some (.read .enc i)) :
      EncEffect p s rest
        { s with schedule := rest, encPort := { s.encPort with reads := s.encPort.reads ++ [(i, v)] } }
  /-- `RST`. -/
  | reset (nonce : Bytes) (hn : nonce.length = 12) (hm : s.schedule.head? = some (.rst .enc)) :
      EncEffect p s rest
        { s with
          schedule := rest
          enc := .resetWith nonce
          encPort := { s.encPort with request := none, freeUses := s.encPort.freeUses + 1 } }
  /-- The adapter fails. -/
  | cipherFailed (k : Nat) (r : CipherRequest) (hm : s.schedule.head? = some (.reply .enc k))
      (hs : s.enc.state = .cipher) (hr : s.encPort.request = some (k, r)) (ha : adapterAnswer p r = none) :
      EncEffect p s rest
        { s with
          schedule := rest
          enc := { s.enc with inflight := .none, state := .ready }
          encPort := { s.encPort with request := none, sent := s.encPort.sent ++ [.response .eCipher] } }
  /-- The adapter's answer does not fit the length field. -/
  | oversize (k : Nat) (r : CipherRequest) (ctTag : Bytes) (hm : s.schedule.head? = some (.reply .enc k))
      (hs : s.enc.state = .cipher) (hr : s.encPort.request = some (k, r)) (ha : adapterAnswer p r = some ctTag)
      (hf : assemble s.enc ctTag = none) :
      EncEffect p s rest
        { s with
          schedule := rest
          enc := { s.enc with inflight := .none, fault := .framing, state := .halted }
          encPort := { s.encPort with request := none, sent := s.encPort.sent ++ [.response .eFraming] } }
  /-- A frame is emitted; the nonce is pinned or drawn anew. -/
  | framed (k : Nat) (r : CipherRequest) (ctTag F nonce : Bytes) (draws : Nat)
      (hm : s.schedule.head? = some (.reply .enc k))
      (hs : s.enc.state = .cipher) (hr : s.encPort.request = some (k, r)) (ha : adapterAnswer p r = some ctTag)
      (hf : assemble s.enc ctTag = some F)
      (hn : s.enc.EXT = true ∧ nonce = s.enc.currentNonce ∧ draws = s.draws ∨
        s.enc.EXT = false ∧ nonce = drawnBytes p s.enc.N s ∧ draws = s.draws + 1) :
      EncEffect p s rest
        { s with
          schedule := rest
          draws := draws
          enc := { s.enc with currentNonce := nonce, inflight := .none, state := .ready }
          encPort := { s.encPort with request := none, sent := s.encPort.sent ++ [.chunk F, .response .ok] } }
  /-- A command the unit does not run. -/
  | answered (c : Command) (waiting : List Command) (r : Response) (hm : s.schedule.head? = some (.unit .enc))
      (hw : s.encPort.commands = c :: waiting) (hs : s.enc.state ≠ .cipher) :
      EncEffect p s rest
        { s with
          schedule := rest
          encPort := { s.encPort with commands := waiting, sent := s.encPort.sent ++ [.response r] } }
  /-- `ENCODE`, refused by the size check. -/
  | tooLong (c : Command) (waiting : List Command) (hm : s.schedule.head? = some (.unit .enc))
      (hw : s.encPort.commands = c :: waiting) (hs : s.enc.state = .ready) :
      EncEffect p s rest
        { s with
          schedule := rest
          enc := { s.enc with inflight := .none, fault := .framing, state := .halted }
          encPort := { s.encPort with commands := waiting, sent := s.encPort.sent ++ [.response .eFraming] } }
  /-- `ENCODE`, issued. -/
  | issued (c : Command) (waiting : List Command) (chunk : Bytes) (hm : s.schedule.head? = some (.unit .enc))
      (hw : s.encPort.commands = c :: waiting) (hs : s.enc.state = .ready) :
      EncEffect p s rest
        { s with
          schedule := rest
          enc := { s.enc with inflight := .encReq, state := .cipher }
          encPort := { s.encPort with
            commands := waiting
            request := some (s.encPort.tickets, s.enc.request chunk)
            tickets := s.encPort.tickets + 1 } }
  /-- `CONFIG`, accepted. -/
  | configured (c : Command) (waiting : List Command) (key : Key) (payload nonce : Bytes) (draws : Nat)
      (hm : s.schedule.head? = some (.unit .enc)) (hw : s.encPort.commands = c :: waiting) (hs : s.enc.state = .off)
      (hf : firstFailure .enc key payload = none)
      (hn : (readRecord .enc payload).EXT = true ∧ nonce = (readRecord .enc payload).extNonce ∧ draws = s.draws ∨
        (readRecord .enc payload).EXT = false ∧ nonce = drawnBytes p (readRecord .enc payload).N s ∧
          draws = s.draws + 1) :
      EncEffect p s rest
        { s with
          schedule := rest
          draws := draws
          enc :=
            { key := key, N := (readRecord .enc payload).N, currentNonce := nonce, T := (readRecord .enc payload).T,
              aad := (readRecord .enc payload).aad, NIF := (readRecord .enc payload).NIF,
              LP := (readRecord .enc payload).LP, EXT := (readRecord .enc payload).EXT,
              state := .ready, fault := .none, inflight := .none }
          encPort := { s.encPort with commands := waiting, sent := s.encPort.sent ++ [.response .ok] } }
  /-- `CONFIG`, failed. -/
  | configFailed (c : Command) (waiting : List Command) (nonce : Bytes) (hn : nonce.length = 12)
      (hm : s.schedule.head? = some (.unit .enc)) (hw : s.encPort.commands = c :: waiting) (hs : s.enc.state = .off) :
      EncEffect p s rest
        { s with
          schedule := rest
          enc := { EncoderState.resetWith nonce with fault := .config }
          encPort := { s.encPort with
            commands := waiting, freeUses := s.encPort.freeUses + 1
            sent := s.encPort.sent ++ [.response .eConfig] } }
  /-- `CLOSE`. -/
  | closed (c : Command) (waiting : List Command) (nonce : Bytes) (hn : nonce.length = 12)
      (hm : s.schedule.head? = some (.unit .enc)) (hw : s.encPort.commands = c :: waiting) (hc : c.code = 0x05#8)
      (hs : s.enc.state ≠ .cipher) :
      EncEffect p s rest
        { s with
          schedule := rest
          enc := .resetWith nonce
          encPort := { s.encPort with
            commands := waiting, freeUses := s.encPort.freeUses + 1
            sent := s.encPort.sent ++ [.response .ok] } }

/-- What a step about DEC can be. `rest` is the schedule after it. -/
inductive DecEffect (p : Params) (s : State) (rest : List Move) : State → Prop where
  /-- Nothing: an empty port, a unit waiting in `CIPHER`, an ignored reply. -/
  | idle : DecEffect p s rest { s with schedule := rest }
  /-- The host offers a command. -/
  | offered (c : Command) (hm : s.schedule.head? = some (.offer .dec c)) :
      DecEffect p s rest
        { s with schedule := rest, decPort := { s.decPort with commands := s.decPort.commands ++ [c] } }
  /-- The host reads a register. -/
  | read (i v : Nat) (hm : s.schedule.head? = some (.read .dec i)) :
      DecEffect p s rest
        { s with schedule := rest, decPort := { s.decPort with reads := s.decPort.reads ++ [(i, v)] } }
  /-- `RST`. -/
  | reset (nonce : Bytes) (hm : s.schedule.head? = some (.rst .dec)) :
      DecEffect p s rest
        { s with
          schedule := rest
          dec := .resetWith nonce
          decPort := { s.decPort with request := none, freeUses := s.decPort.freeUses + 1 } }
  /-- The decryption fails. -/
  | authFailed (k : Nat) (r : CipherRequest) (hm : s.schedule.head? = some (.reply .dec k))
      (hs : s.dec.state = .cipher) (hr : s.decPort.request = some (k, r)) (ha : adapterAnswer p r = none) :
      DecEffect p s rest
        { s with
          schedule := rest
          dec := { s.dec with inflight := .none, fault := .auth, state := .halted }
          decPort := { s.decPort with request := none, sent := s.decPort.sent ++ [.response .eAuth] } }
  /-- A plaintext chunk is emitted. -/
  | opened (k : Nat) (r : CipherRequest) (plaintext : Bytes) (hm : s.schedule.head? = some (.reply .dec k))
      (hs : s.dec.state = .cipher) (hr : s.decPort.request = some (k, r)) (ha : adapterAnswer p r = some plaintext) :
      DecEffect p s rest
        { s with
          schedule := rest
          dec := { s.dec with inflight := .none, state := .scan }
          decPort := { s.decPort with
            request := none, sent := s.decPort.sent ++ [.chunk (plaintext ++ s.dec.inflight.aad)] } }
  /-- A command the unit does not run. -/
  | answered (c : Command) (waiting : List Command) (r : Response) (hm : s.schedule.head? = some (.unit .dec))
      (hw : s.decPort.commands = c :: waiting) (hs : s.dec.state ≠ .scan ∧ s.dec.state ≠ .cipher) :
      DecEffect p s rest
        { s with
          schedule := rest
          decPort := { s.decPort with commands := waiting, sent := s.decPort.sent ++ [.response r] } }
  /-- `DECODE`, the chunk appended. -/
  | appended (c : Command) (waiting : List Command) (chunk : Bytes) (hm : s.schedule.head? = some (.unit .dec))
      (hw : s.decPort.commands = c :: waiting) (hs : s.dec.state = .ready)
      (hf : p.pendingCap.allows (s.dec.pending.length + chunk.length) = true) :
      DecEffect p s rest
        { s with
          schedule := rest
          dec := { s.dec with pending := s.dec.pending ++ chunk, state := .scan }
          decPort := { s.decPort with commands := waiting } }
  /-- `DECODE`, the chunk over the capacity. -/
  | overflowed (c : Command) (waiting : List Command) (hm : s.schedule.head? = some (.unit .dec))
      (hw : s.decPort.commands = c :: waiting) (hs : s.dec.state = .ready) :
      DecEffect p s rest
        { s with
          schedule := rest
          dec := { s.dec with inflight := .none, fault := .overflow, state := .halted }
          decPort := { s.decPort with commands := waiting, sent := s.decPort.sent ++ [.response .eOverflow] } }
  /-- The detector waits: the command ends. -/
  | rested (hm : s.schedule.head? = some (.unit .dec)) (hs : s.dec.state = .scan) (hd : detect s.dec = .wait) :
      DecEffect p s rest
        { s with
          schedule := rest
          dec := { s.dec with state := .ready }
          decPort := { s.decPort with sent := s.decPort.sent ++ [.response .ok] } }
  /-- The detector finds malformed bytes. -/
  | malformed (hm : s.schedule.head? = some (.unit .dec)) (hs : s.dec.state = .scan) (hd : detect s.dec = .malformed) :
      DecEffect p s rest
        { s with
          schedule := rest
          dec := { s.dec with inflight := .none, fault := .framing, state := .halted }
          decPort := { s.decPort with sent := s.decPort.sent ++ [.response .eFraming] } }
  /-- The detector finds a frame: it is taken off and its decryption requested. -/
  | extracted (n : Nat) (hm : s.schedule.head? = some (.unit .dec)) (hs : s.dec.state = .scan)
      (hd : detect s.dec = .frame n) :
      DecEffect p s rest
        { s with
          schedule := rest
          dec := { s.dec with
            pending := s.dec.pending.drop n, state := .cipher
            inflight := .decReq (parse s.dec (s.dec.pending.take n)).aad }
          decPort := { s.decPort with
            request := some (s.decPort.tickets, s.dec.request (parse s.dec (s.dec.pending.take n)))
            tickets := s.decPort.tickets + 1 } }
  /-- `END`, nothing buffered. -/
  | ended (c : Command) (waiting : List Command) (hm : s.schedule.head? = some (.unit .dec))
      (hw : s.decPort.commands = c :: waiting) (hs : s.dec.state = .ready) (hp : s.dec.pending = []) :
      DecEffect p s rest
        { s with
          schedule := rest
          dec := { s.dec with state := .ended }
          decPort := { s.decPort with commands := waiting, sent := s.decPort.sent ++ [.response .ok] } }
  /-- `END`, bytes left over. -/
  | truncated (c : Command) (waiting : List Command) (hm : s.schedule.head? = some (.unit .dec))
      (hw : s.decPort.commands = c :: waiting) (hs : s.dec.state = .ready) (hp : s.dec.pending ≠ []) :
      DecEffect p s rest
        { s with
          schedule := rest
          dec := { s.dec with inflight := .none, fault := .trunc, state := .halted }
          decPort := { s.decPort with commands := waiting, sent := s.decPort.sent ++ [.response .eTrunc] } }
  /-- `CONFIG`, accepted. -/
  | configured (c : Command) (waiting : List Command) (key : Key) (payload nonce : Bytes) (freeUses : Nat)
      (hm : s.schedule.head? = some (.unit .dec)) (hw : s.decPort.commands = c :: waiting) (hs : s.dec.state = .off)
      (hf : firstFailure .dec key payload = none)
      (hn : (readRecord .dec payload).EXT = true → nonce = (readRecord .dec payload).extNonce) :
      DecEffect p s rest
        { s with
          schedule := rest
          dec :=
            { key := key, N := (readRecord .dec payload).N, EXT := (readRecord .dec payload).EXT, extNonce := nonce,
              T := (readRecord .dec payload).T, A := (readRecord .dec payload).A, NIF := (readRecord .dec payload).NIF,
              LP := (readRecord .dec payload).LP, pending := [], state := .ready, fault := .none, inflight := .none }
          decPort := { s.decPort with
            commands := waiting, freeUses := freeUses, sent := s.decPort.sent ++ [.response .ok] } }
  /-- `CONFIG`, failed. -/
  | configFailed (c : Command) (waiting : List Command) (nonce : Bytes)
      (hm : s.schedule.head? = some (.unit .dec)) (hw : s.decPort.commands = c :: waiting) (hs : s.dec.state = .off) :
      DecEffect p s rest
        { s with
          schedule := rest
          dec := { DecoderState.resetWith nonce with fault := .config }
          decPort := { s.decPort with
            commands := waiting, freeUses := s.decPort.freeUses + 1
            sent := s.decPort.sent ++ [.response .eConfig] } }
  /-- `CLOSE`. -/
  | closed (c : Command) (waiting : List Command) (nonce : Bytes)
      (hm : s.schedule.head? = some (.unit .dec)) (hw : s.decPort.commands = c :: waiting) (hc : c.code = 0x05#8)
      (hs : s.dec.state ≠ .scan ∧ s.dec.state ≠ .cipher) :
      DecEffect p s rest
        { s with
          schedule := rest
          dec := .resetWith nonce
          decPort := { s.decPort with
            commands := waiting, freeUses := s.decPort.freeUses + 1
            sent := s.decPort.sent ++ [.response .ok] } }

/-- What a command of ENC's port decodes to. -/
theorem decode_enc_cases {c : Command} {i : Instr} (h : decode .enc c = .ok i) :
    i = .encConfig c.key c.payload ∨ i = .encEncode c.payload ∨ i = .encClose ∧ c.code = 0x05#8 := by
  unfold decode at h
  split at h <;> simp_all [BitVec.toNat_eq]

/-- What a command of DEC's port decodes to. -/
theorem decode_dec_cases {c : Command} {i : Instr} (h : decode .dec c = .ok i) :
    i = .decConfig c.key c.payload ∨ i = .decDecode c.payload ∨ i = .decEnd ∨ i = .decClose ∧ c.code = 0x05#8 := by
  unfold decode at h
  split at h <;> simp_all [BitVec.toNat_eq]

/-- ENC's own move is one of the listed effects. -/
theorem unitMove_enc_effect {p : Params} {s t : State} {rest : List Move} (hm : s.schedule = .unit .enc :: rest)
    (h : unitMove p (runWith p) .enc { s with schedule := rest } = .next t) : EncEffect p s rest t := by
  have hh : s.schedule.head? = some (.unit .enc) := by rw [hm]; rfl
  by_cases hci : s.enc.state = .cipher
  · simp only [unitMove, hci] at h
    cases h
    exact .idle
  · have h' : acceptCommand p (runWith p) .enc { s with schedule := rest } = .next t := by
      cases hs : s.enc.state <;> simp_all [unitMove]
    obtain ⟨_, he⟩ | ⟨c, w, hw, ⟨e, hd, he⟩ | ⟨i, hd, ⟨_, he⟩ | ⟨_, he⟩⟩⟩ :=
      acceptCommand_cases p (runWith p) .enc { s with schedule := rest }
    · rw [he] at h'
      cases h'
      exact .idle
    · rw [he] at h'
      cases h'
      exact .answered c w .eRejected hh hw hci
    · rw [he] at h'
      obtain rfl | rfl | ⟨rfl, hc5⟩ := decode_enc_cases hd
      · simp only [runWith, encConfig, Host.Outcome.next.injEq] at h'
        cases hs : s.enc.state
        · cases hf : firstFailure .enc c.key c.payload with
          | none =>
            cases hx : (readRecord .enc c.payload).EXT <;> simp [hs, encConfigRun, hf, loadEnc, firstNonce, hx] at h' <;> subst h'
            · have := EncEffect.configured (p := p) (rest := rest) c w c.key c.payload _ _ hh hw hs hf (.inr ⟨hx, rfl, rfl⟩)
              rw [hx] at this
              exact this
            · have := EncEffect.configured (p := p) (rest := rest) c w c.key c.payload _ _ hh hw hs hf (.inl ⟨hx, rfl, rfl⟩)
              rw [hx] at this
              exact this
          | some n =>
            simp [hs, encConfigRun, hf, configFailed] at h'
            subst h'
            exact .configFailed c w _ (unspecifiedBytes_length _ _ _ _) hh hw hs
        · simp [hs] at h'
          subst h'
          exact .answered c w _ hh hw hci
        · exact absurd hs hci
        · simp [hs] at h'
          subst h'
          exact .answered c w _ hh hw hci
      · have h2 := Host.Outcome.next.inj h'
        cases hs : s.enc.state
        · simp [encEncode, hs] at h2
          subst h2
          exact .answered c w _ hh hw hci
        · by_cases hq : s.enc.LP = true ∧ lmax < s.enc.frameLength c.payload
          · rw [encEncode_ready, encIssue_tooLong] at h2
            · subst h2
              exact .tooLong c w hh hw hs
            · exact hq
            · exact hs
          · rw [encEncode_ready, encIssue_fits] at h2
            · subst h2
              exact .issued c w c.payload hh hw hs
            · exact hq
            · exact hs
        · exact absurd hs hci
        · simp [encEncode, hs] at h2
          subst h2
          exact .answered c w _ hh hw hci
      · have h2 : respond .enc .ok (resetUnit p .enc
            (State.setPort { s with schedule := rest } .enc { s.encPort with commands := w })) = t := by
          cases hs : s.enc.state <;> simp_all [runWith, encClose]
        simp at h2
        subst h2
        exact .closed c w _ (unspecifiedBytes_length _ _ _ _) hh hw hc5 hci
    · rw [he] at h'
      cases h'

/-- DEC's own move is one of the listed effects. -/
theorem unitMove_dec_effect {p : Params} {s t : State} {rest : List Move} (hm : s.schedule = .unit .dec :: rest)
    (h : unitMove p (runWith p) .dec { s with schedule := rest } = .next t) : DecEffect p s rest t := by
  have hh : s.schedule.head? = some (.unit .dec) := by rw [hm]; rfl
  by_cases hci : s.dec.state = .cipher
  · simp only [unitMove, hci] at h
    cases h
    exact .idle
  by_cases hsc : s.dec.state = .scan
  · simp only [unitMove, hsc, decScan, Host.Outcome.next.injEq] at h
    cases hd : detect s.dec with
    | wait =>
      simp [hd] at h
      subst h
      exact .rested hh hsc hd
    | malformed =>
      simp [hd, FatalError.fault, FaultCode.response] at h
      subst h
      exact .malformed hh hsc hd
    | frame n =>
      simp [hd, decExtract, accTake_eq] at h
      subst h
      exact .extracted n hh hsc hd
  have h' : acceptCommand p (runWith p) .dec { s with schedule := rest } = .next t := by
    cases hs : s.dec.state <;> simp_all [unitMove]
  have hst := And.intro hsc hci
  obtain ⟨_, he⟩ | ⟨c, w, hw, ⟨e, hd, he⟩ | ⟨i, hd, ⟨_, he⟩ | ⟨_, he⟩⟩⟩ :=
    acceptCommand_cases p (runWith p) .dec { s with schedule := rest }
  · rw [he] at h'
    cases h'
    exact .idle
  · rw [he] at h'
    cases h'
    exact .answered c w .eRejected hh hw hst
  · rw [he] at h'
    obtain rfl | rfl | rfl | ⟨rfl, hc5⟩ := decode_dec_cases hd
    · simp only [runWith, decConfig, Host.Outcome.next.injEq] at h'
      cases hs : s.dec.state
      · cases hf : firstFailure .dec c.key c.payload with
        | none =>
          cases hx : (readRecord .dec c.payload).EXT <;>
            simp [hs, decConfigRun, hf, loadDec, hx, DecoderState.accReset] at h' <;> subst h'
          · have := DecEffect.configured (p := p) (rest := rest) c w c.key c.payload
              (unspecifiedBytes p .dec (readRecord .dec c.payload).N
                { s with schedule := rest, decPort := { s.decPort with commands := w } })
              (s.decPort.freeUses + 1) hh hw hs hf (by simp [hx])
            rw [hx] at this
            exact this
          · have := DecEffect.configured (p := p) (rest := rest) c w c.key c.payload _ s.decPort.freeUses hh hw hs hf
              (fun _ => rfl)
            rw [hx] at this
            exact this
        | some n =>
          simp [hs, decConfigRun, hf, configFailed] at h'
          subst h'
          exact .configFailed c w _ hh hw hs
      · simp [hs] at h'
        subst h'
        exact .answered c w _ hh hw hst
      · exact absurd hs hsc
      · exact absurd hs hci
      · simp [hs] at h'
        subst h'
        exact .answered c w _ hh hw hst
      · simp [hs] at h'
        subst h'
        exact .answered c w _ hh hw hst
    · simp only [runWith, decDecode, Host.Outcome.next.injEq] at h'
      cases hs : s.dec.state
      · simp [hs] at h'
        subst h'
        exact .answered c w _ hh hw hst
      · by_cases hf : p.pendingCap.allows (s.dec.pending.length + c.payload.length) = true
        · simp [hs, decAccept, hf] at h'
          subst h'
          exact .appended c w c.payload hh hw hs hf
        · simp [hs, decAccept, hf, FatalError.fault, FaultCode.response] at h'
          subst h'
          exact .overflowed c w hh hw hs
      · exact absurd hs hsc
      · exact absurd hs hci
      · simp [hs] at h'
        subst h'
        exact .answered c w _ hh hw hst
      · simp [hs] at h'
        subst h'
        exact .answered c w _ hh hw hst
    · have h2 := Host.Outcome.next.inj h'
      cases hs : s.dec.state
      · simp [decEnd, hs] at h2
        subst h2
        exact .answered c w _ hh hw hst
      · by_cases hp : s.dec.pending = []
        · rw [decEnd_ready, decEndRun_clean] at h2
          · subst h2
            exact .ended c w hh hw hs hp
          · exact hp
          · exact hs
        · rw [decEnd_ready, decEndRun_left] at h2
          · subst h2
            exact .truncated c w hh hw hs hp
          · exact hp
          · exact hs
      · exact absurd hs hsc
      · exact absurd hs hci
      · simp [decEnd, hs] at h2
        subst h2
        exact .answered c w _ hh hw hst
      · simp [decEnd, hs] at h2
        subst h2
        exact .answered c w _ hh hw hst
    · have h2 : respond .dec .ok (resetUnit p .dec
          (State.setPort { s with schedule := rest } .dec { s.decPort with commands := w })) = t := by
        cases hs : s.dec.state <;> simp_all [runWith, decClose]
      simp at h2
      subst h2
      exact .closed c w _ hh hw hc5 hst
  · rw [he] at h'
    cases h'

/-- A reply to ENC is one of the listed effects. -/
theorem replyMove_enc_effect (p : Params) {s : State} {rest : List Move} {k : Nat}
    (hm : s.schedule = .reply .enc k :: rest) : EncEffect p s rest (replyMove p .enc k { s with schedule := rest }) := by
  have hh : s.schedule.head? = some (.reply .enc k) := by rw [hm]; rfl
  cases hr : s.encPort.request with
  | none =>
    simp only [replyMove, port_enc, hr]
    exact .idle
  | some kr =>
    obtain ⟨k', r⟩ := kr
    simp only [replyMove, port_enc, hr]
    split
    · rename_i hk
      subst hk
      cases hs : s.enc.state <;> simp only [takeReply, clearRequest_enc_unit, hs]
      case cipher =>
        cases ha : adapterAnswer p r with
        | none =>
          simp [encReply, encFinish]
          exact .cipherFailed k' r hh hs hr ha
        | some ctTag =>
          cases hf : assemble s.enc ctTag with
          | none =>
            simp [encReply, hf, FatalError.fault, FaultCode.response]
            exact .oversize k' r ctTag hh hs hr ha hf
          | some F =>
            by_cases hx : s.enc.EXT = true
            · rw [encReply_framed, rotate_pinned]
              · have := EncEffect.framed (rest := rest) k' r ctTag F _ _ hh hs hr ha hf (.inl ⟨hx, rfl, rfl⟩)
                simpa only [encFinish, emit_enc_unit, respond_enc_unit, List.append_assoc, List.cons_append,
                  List.nil_append] using this
              · exact hx
              · exact hf
            · rw [encReply_framed, rotate_drawn]
              · have := EncEffect.framed (rest := rest) k' r ctTag F _ _ hh hs hr ha hf (.inr ⟨by simpa using hx, rfl, rfl⟩)
                simpa only [encFinish, emit_enc_unit, respond_enc_unit, List.append_assoc, List.cons_append,
                  List.nil_append, drawnBytes] using this
              · exact hx
              · exact hf
      all_goals exact .idle
    · exact .idle

/-- A reply to DEC is one of the listed effects. -/
theorem replyMove_dec_effect (p : Params) {s : State} {rest : List Move} {k : Nat}
    (hm : s.schedule = .reply .dec k :: rest) : DecEffect p s rest (replyMove p .dec k { s with schedule := rest }) := by
  have hh : s.schedule.head? = some (.reply .dec k) := by rw [hm]; rfl
  cases hr : s.decPort.request with
  | none =>
    simp only [replyMove, port_dec, hr]
    exact .idle
  | some kr =>
    obtain ⟨k', r⟩ := kr
    simp only [replyMove, port_dec, hr]
    split
    · rename_i hk
      subst hk
      cases hs : s.dec.state <;> simp only [takeReply, clearRequest_dec_unit, hs]
      case cipher =>
        cases ha : adapterAnswer p r with
        | none =>
          simp [decReply, FatalError.fault, FaultCode.response]
          exact .authFailed k' r hh hs hr ha
        | some plaintext =>
          simp [decReply]
          exact .opened k' r plaintext hh hs hr ha
      all_goals exact .idle
    · exact .idle

/-- Every step is an effect about ENC or an effect about DEC. -/
theorem stepUnder_effect {p : Params} {s t : State} (h : stepUnder p s = .next t) :
    EncEffect p s s.schedule.tail t ∨ DecEffect p s s.schedule.tail t := by
  cases hm : s.schedule with
  | nil =>
    simp only [stepUnder, stepWith_nil _ _ _ hm, Host.Outcome.next.injEq] at h
    subst h
    have := EncEffect.idle (p := p) (s := s) (rest := [])
    exact .inl (by rwa [show { s with schedule := [] } = s by cases s; cases hm; rfl] at this)
  | cons m rest =>
    have hh : s.schedule.head? = some m := by rw [hm]; rfl
    simp only [stepUnder, stepWith_cons _ _ _ _ _ hm] at h
    cases m with
    | offer u c => cases u <;> cases h <;> [exact .inl (.offered c hh); exact .inr (.offered c hh)]
    | rst u =>
      cases u <;> cases h <;>
        [exact .inl (.reset _ (unspecifiedBytes_length _ _ _ _) hh); exact .inr (.reset _ hh)]
    | read u i => cases u <;> cases h <;> [exact .inl (.read i _ hh); exact .inr (.read i _ hh)]
    | reply u k =>
      cases u <;> cases h <;> [exact .inl (replyMove_enc_effect p hm); exact .inr (replyMove_dec_effect p hm)]
    | unit u => cases u <;> [exact .inl (unitMove_enc_effect hm h); exact .inr (unitMove_dec_effect hm h)]

/-- An effect about ENC leaves DEC's side alone. -/
theorem EncEffect_dec {p : Params} {s t : State} {rest : List Move} (h : EncEffect p s rest t) :
    t.dec = s.dec ∧ t.decPort = s.decPort := by cases h <;> exact ⟨rfl, rfl⟩

/-- An effect about DEC leaves ENC's side alone. -/
theorem DecEffect_enc {p : Params} {s t : State} {rest : List Move} (h : DecEffect p s rest t) :
    t.enc = s.enc ∧ t.encPort = s.encPort ∧ t.draws = s.draws := by cases h <;> exact ⟨rfl, rfl, rfl⟩

/-- The machine's step is the step under the parameters of Config. -/
theorem step_eq_stepUnder (s : State) : step s = stepUnder Config.params s := by
  have : exec = runWith Config.params := funext fun i => funext fun s => exec_eq_runWith i s
  simp only [step, stepUnder, this]

end Sys2Proof.Machine
end

