-- ==== Sys2Proof/Tests/Slice0.lean ====
section
/-! SUPPORT. Tests against 95_test_vectors (one step each, its toy adapter TOY-SUM of section 2), and for every statement with
hypotheses a witness that meets them. Expected results are the spec's tables, never the model's own output. -/

namespace Sys2Proof.Tests

open Sys2Proof Sys2Proof.Machine

/-! ## The toy adapter and the fixed inputs (95_test_vectors section 2) -/

def bytes (l : List Nat) : Bytes := l.map (BitVec.ofNat 8)

def run16 (first n : Nat) : Bytes := (List.range n).map fun i => BitVec.ofNat 8 (first + i)

def byteSum (b : Bytes) : Nat := (b.map BitVec.toNat).sum

/-- The key behind handle 0 is the bytes `00` to `0F`. -/
def keyBytes : Key → Bytes
  | .invalid => []
  | .handle _ => run16 0 16

def toyTag (ct : Bytes) (key : Key) (nonce aad : Bytes) (T : Nat) : Bytes :=
  run16 (byteSum (keyBytes key) + byteSum nonce + byteSum aad + byteSum ct) (T / 8)

def toyXor (nonce : Bytes) : Nat → Bytes → Bytes
  | _, [] => []
  | i, b :: rest => (b ^^^ nonce.getD (i % nonce.length) 0#8) :: toyXor nonce (i + 1) rest

def toyEncrypt (data : Bytes) (key : Key) (nonce aad : Bytes) (T : Nat) : Option Bytes :=
  some (toyXor nonce 0 data ++ toyTag (toyXor nonce 0 data) key nonce aad T)

def toyDecrypt (c : Bytes) (key : Key) (nonce aad : Bytes) (T : Nat) : Option Bytes :=
  if c.length < T / 8 then none
  else if c.drop (c.length - T / 8) = toyTag (c.take (c.length - T / 8)) key nonce aad T then
    some (toyXor nonce 0 (c.take (c.length - T / 8)))
  else none

def toy : Params where
  pendingCap := none
  maxChunk := none
  encrypt := toyEncrypt
  decrypt := toyDecrypt
  rng := fun k i => BitVec.ofNat 8 (0xA0 + 16 * k + i)
  free := fun _ k i => BitVec.ofNat 8 (k + i)

/-- An adapter whose named laws are short to prove: the plaintext followed by a tag of zeros. -/
def plain : Params :=
  { toy with
    encrypt := fun data _ _ _ T => some (data ++ List.replicate (T / 8) 0#8)
    decrypt := fun c _ _ _ T => if c.length < T / 8 then none else some (c.take (c.length - T / 8)) }

/-- An adapter that always fails. -/
def failing : Params := { toy with encrypt := fun _ _ _ _ _ => none, decrypt := fun _ _ _ _ _ => none }

/-- An adapter that breaks the length law: 2^32 bytes whatever the plaintext. -/
def oversized : Params := { toy with encrypt := fun _ _ _ _ _ => some (List.replicate (2 ^ 32) 0#8) }

def hello : Bytes := bytes [0x68, 0x65, 0x6C, 0x6C, 0x6F]

/-- F1 of section 2, as its table writes it. -/
def frame1 : Bytes :=
  bytes [0x00, 0x00, 0x00, 0x25] ++
  bytes [0xA0, 0xA1, 0xA2, 0xA3, 0xA4, 0xA5, 0xA6, 0xA7, 0xA8, 0xA9, 0xAA, 0xAB] ++
  bytes [0xC8, 0xC4, 0xCE, 0xCF, 0xCB] ++
  bytes [0x2E, 0x2F, 0x30, 0x31, 0x32, 0x33, 0x34, 0x35, 0x36, 0x37, 0x38, 0x39, 0x3A, 0x3B, 0x3C, 0x3D]

/-- G1 of section 3.2 (E6): unprefixed, nonce pinned and off the wire, additional data `CA FE`. -/
def frameG : Bytes :=
  bytes [0x70, 0x73, 0x72] ++
  bytes [0x61, 0x62, 0x63, 0x64, 0x65, 0x66, 0x67, 0x68, 0x69, 0x6A, 0x6B, 0x6C, 0x6D, 0x6E, 0x6F, 0x70] ++
  bytes [0xCA, 0xFE]

/-- H1 of section 3.2 (E8): prefixed, nonce off the wire, `T` = 32. -/
def frameH : Bytes :=
  bytes [0x00, 0x00, 0x00, 0x0D, 0x70, 0x73, 0x72, 0x61, 0x62, 0x63, 0x64, 0xCA, 0xFE]

/-- J1 of section 3.2 (E9): unprefixed, nonce on the wire, `N` = 4, `T` = 64. -/
def frameJ : Bytes :=
  bytes [0x01, 0x02, 0x03, 0x04, 0xFE, 0x02, 0xFC, 0x04, 0xFE] ++
  bytes [0x80, 0x81, 0x82, 0x83, 0x84, 0x85, 0x86, 0x87]

/-- ENC after `CONFIG` with the defaults (Q1), the first draw made. -/
def encReady : EncoderState :=
  { EncoderState.resetWith (run16 0xA0 12) with key := .handle 0, state := .ready }

/-- ENC after Q14's record: E6's encoder. -/
def encPinned : EncoderState where
  key := .handle 0
  N := 12
  currentNonce := List.replicate 12 0x11#8
  T := 128
  aad := bytes [0xCA, 0xFE]
  NIF := false
  LP := false
  EXT := true
  state := .ready
  fault := .none
  inflight := .none

/-- DEC after `CONFIG` with the defaults (Q1). -/
def decReady : DecoderState :=
  { DecoderState.resetWith (run16 0 12) with key := .handle 0, state := .ready }

/-- DEC after Q15's record: X16's decoder. -/
def decPinned : DecoderState where
  key := .handle 0
  N := 12
  EXT := true
  extNonce := List.replicate 12 0x11#8
  T := 128
  A := 2
  NIF := false
  LP := false
  pending := []
  state := .ready
  fault := .none
  inflight := .none

def machine (e : EncoderState) (d : DecoderState) (schedule : List Move) : State :=
  { State.reset with enc := e, dec := d, draws := 1, schedule := schedule }

def ready (schedule : List Move) : State := machine encReady decReady schedule

/-- The state with one command waiting at each port. -/
def withCommands (c c' : Command) (s : State) : State :=
  { s with
    encPort := { s.encPort with commands := [c] }
    decPort := { s.decPort with commands := [c'] } }

def encBusy : EncoderState := { encReady with state := .cipher, inflight := .encReq }

def decBusy : DecoderState := { decReady with state := .cipher, inflight := .decReq [] }

def encBusyPort (data : Bytes) : Port := { Port.empty with request := some (0, encReady.request data), tickets := 1 }

def decBusyPort (ctTag : Bytes) : Port :=
  { Port.empty with
    request := some (0, decReady.request { nonce := run16 0xA0 12, ctTag := ctTag, aad := [] })
    tickets := 1 }

/-- The state with ENC in `CIPHER` on the encryption of `data`, DEC in `CIPHER` on the decryption of `ctTag`. -/
def inCipher (data ctTag : Bytes) (schedule : List Move) : State :=
  { machine encBusy decBusy schedule with encPort := encBusyPort data, decPort := decBusyPort ctTag }

def encHalted : EncoderState := { encReady with state := .halted, fault := .framing }

def decHalted : DecoderState := { decReady with state := .halted, fault := .auth }

/-- The next state of a command's meaning under the toy parameters; the state itself where there is none. -/
def after (p : Params) (i : Instr) (s : State) : State :=
  match runWith p i s with
  | .next t => t
  | .fault _ => s
  | .refused _ => s

/-- The next state of one step. -/
def tick (p : Params) (s : State) : State :=
  match stepUnder p s with
  | .next t => t
  | .fault _ => s
  | .refused _ => s

/-! ## WellFormed: a chunk longer than `MAX_CHUNK` is refused (30_encoding R51) -/

theorem test_wellFormed_encode : Instr.wellFormed (some 2) (.encEncode [1#8, 2#8, 3#8]) = false := by decide
theorem test_wellFormed_decode : Instr.wellFormed (some 2) (.decDecode [1#8, 2#8, 3#8]) = false := by decide
theorem test_wellFormed_fits : Instr.wellFormed (some 2) (.decDecode [1#8, 2#8]) = true := by decide
theorem test_ill_formed_stops :
    stepUnder { toy with maxChunk := some 2 }
      (withCommands ⟨0x02#8, [1#8, 2#8, 3#8], .invalid⟩ ⟨0x04#8, [], .invalid⟩ (ready [.unit .enc])) =
        .fault .chunkExceedsPort := rfl

/-! ## Decoding: the codes of 30_encoding R50, bit by bit as opcode_table.json writes them -/

theorem test_decode_enc_config :
    decodeBytes .enc (.handle 7) [0b00000001#8, 0x03#8] = .ok (.encConfig (.handle 7) [0x03#8]) := rfl
theorem test_decode_dec_config :
    decodeBytes .dec (.handle 7) [0b00000001#8, 0x03#8] = .ok (.decConfig (.handle 7) [0x03#8]) := rfl
theorem test_decode_enc_encode :
    decodeBytes .enc .invalid [0b00000010#8, 0x61#8] = .ok (.encEncode [0x61#8]) := rfl
theorem test_decode_dec_decode :
    decodeBytes .dec .invalid [0b00000011#8, 0x61#8] = .ok (.decDecode [0x61#8]) := rfl
theorem test_decode_dec_end : decodeBytes .dec .invalid [0b00000100#8, 0x61#8] = .ok .decEnd := rfl
theorem test_decode_enc_close : decodeBytes .enc .invalid [0b00000101#8] = .ok .encClose := rfl
theorem test_decode_dec_close : decodeBytes .dec .invalid [0b00000101#8] = .ok .decClose := rfl
/-- Q27: a code of the other unit is unknown. -/
theorem test_decode_unknown :
    decodeBytes .dec .invalid [0x02#8] = .error (.unknownCode 0x02#8) ∧
    decodeBytes .enc .invalid [0x03#8] = .error (.unknownCode 0x03#8) ∧
    decodeBytes .enc .invalid [0x81#8] = .error (.unknownCode 0x81#8) := ⟨rfl, rfl, rfl⟩
theorem test_table_word : decodeTableWord 8 3 = some (.decDecode []) ∧ decodeTableWord 8 0xFF = none := ⟨rfl, rfl⟩
/-- A placed word runs in the very next step: `DEC.END` in `OFF` is answered `E_REJECTED` (Q20). -/
theorem test_fetch_word_runs :
    step (State.reset.withFetchWord 8 4) =
      .next { State.reset with decPort := { Port.empty with sent := [.response .eRejected] } } := rfl

/-! ## One step of each command (95_test_vectors section 3) -/

/-- Q1. -/
theorem test_enc_config_defaults :
    (after toy (.encConfig (.handle 0) []) State.reset).enc = encReady ∧
    (after toy (.encConfig (.handle 0) []) State.reset).draws = 1 := by decide

/-- Q14. -/
theorem test_enc_config_pinned :
    (after toy (.encConfig (.handle 0)
      (bytes [0x04, 0, 0, 0, 0x0C, 0, 0, 0, 0x80, 0, 0, 0, 2] ++ List.replicate 12 0x11#8 ++ bytes [0xCA, 0xFE]))
      State.reset).enc = encPinned := by decide

/-- Q9, Q16: DEC takes neither both nonce modes nor additional data. -/
theorem test_dec_config_fails :
    firstFailure .dec (.handle 0) (bytes [0x07, 0, 0, 0, 0x0C, 0, 0, 0, 0x80, 0, 0, 0, 0] ++ List.replicate 12 0x11#8) =
      some 5 ∧
    firstFailure .dec (.handle 0)
      (bytes [0x04, 0, 0, 0, 0x0C, 0, 0, 0, 0x80, 0, 0, 0, 2] ++ List.replicate 12 0x11#8 ++ bytes [0xCA, 0xFE]) =
      some 8 := by decide

/-- Q6: `T` = 100; `STATUS` = 0x10. -/
theorem test_dec_config_bad_tag :
    (after toy (.decConfig (.handle 0) (bytes [0x03, 0, 0, 0, 0x0C, 0, 0, 0, 0x64, 0, 0, 0, 0])) State.reset).rd .dec 0 =
      0x10 := by decide

/-- E1's issue step: a request, no output yet. -/
theorem test_enc_encode_issues :
    (after toy (.encEncode hello) (ready [])).encPort.request = some (0, encReady.request hello) ∧
    (after toy (.encEncode hello) (ready [])).encPort.sent = [] := by decide

/-- E1's reply step: F1, then `OK`, and the nonce `B0` to `BB`. -/
theorem test_enc_encode_reply :
    (tick toy (inCipher hello [] [.reply .enc 0])).encPort.sent = [.chunk frame1, .response .ok] ∧
    (tick toy (inCipher hello [] [.reply .enc 0])).enc.currentNonce = run16 0xB0 12 := by decide

/-- P2, command 2: ten bytes of F1 are kept; the detector then waits. -/
theorem test_dec_decode_appends :
    (after toy (.decDecode (frame1.take 10)) (ready [])).dec.pending = frame1.take 10 ∧
    detect (after toy (.decDecode (frame1.take 10)) (ready [])).dec = .wait := by decide

/-- X24: 10 + 10 bytes exceed a capacity of 16; the chunk is dropped whole. -/
theorem test_dec_decode_overflow :
    (after { toy with pendingCap := some 16 } (.decDecode ((frame1.drop 10).take 10))
      (machine encReady { decReady with pending := frame1.take 10 } [])).rd .dec 0 = 0x74 ∧
    (after { toy with pendingCap := some 16 } (.decDecode ((frame1.drop 10).take 10))
      (machine encReady { decReady with pending := frame1.take 10 } [])).rd .dec 5 = 10 := by decide

/-- Q23, Q25. -/
theorem test_dec_end :
    (after toy .decEnd (ready [])).rd .dec 0 = 0x05 ∧
    (after toy .decEnd (machine encReady { decReady with pending := bytes [0, 0, 0, 0x20, 0xC0, 0xC1, 0xC2] } [])).rd
      .dec 0 = 0x54 := by decide

/-- Q29: `CLOSE` of a halted encoder. -/
theorem test_enc_close :
    (after toy .encClose (machine encHalted decReady [])).rd .enc 0 = 0 ∧
    (after toy .encClose (machine encHalted decReady [])).enc.key = .invalid := by decide

/-- Q28: the buffered bytes are lost. -/
theorem test_dec_close :
    (after toy .decClose (machine encReady { decReady with pending := frame1.take 10 } [])).rd .dec 5 = 0 ∧
    (after toy .decClose (machine encReady { decReady with pending := frame1.take 10 } [])).decPort.sent =
      [.response .ok] := by decide

/-- E6, E8, E9: the other three layouts. -/
theorem test_layouts :
    assemble encPinned ((toyEncrypt (bytes [0x61, 0x62, 0x63]) (.handle 0) (List.replicate 12 0x11#8)
      (bytes [0xCA, 0xFE]) 128).getD []) = some frameG ∧
    assemble { encPinned with LP := true, T := 32 } ((toyEncrypt (bytes [0x61, 0x62, 0x63]) (.handle 0)
      (List.replicate 12 0x11#8) (bytes [0xCA, 0xFE]) 32).getD []) = some frameH ∧
    assemble { encReady with LP := false, N := 4, T := 64, currentNonce := bytes [1, 2, 3, 4] }
      ((toyEncrypt (bytes [0xFF, 0, 0xFF, 0, 0xFF]) (.handle 0) (bytes [1, 2, 3, 4]) [] 64).getD []) = some frameJ := by
  decide

/-- T1 to T4 and T5 to T7 of section 3.1. -/
theorem test_be32 :
    be32Enc 16909060 = bytes [1, 2, 3, 4] ∧ be32Enc 4294967295 = bytes [0xFF, 0xFF, 0xFF, 0xFF] ∧
    be32Dec (bytes [0, 0, 1, 0]) = 256 ∧ be32Dec (bytes [0x80, 0, 0, 0]) = 2147483648 := by decide

/-- X6, X7: 31 is malformed, 32 waits. -/
theorem test_detect :
    detect { decReady with pending := bytes [0, 0, 0, 0x1F] } = .malformed ∧
    detect { decReady with pending := bytes [0, 0, 0, 0x20] } = .wait ∧
    detect { decReady with pending := frame1 ++ [0#8] } = .frame 37 ∧
    detect { decPinned with pending := bytes [0x70, 0x73, 0x72, 0x61, 0x62] } = .malformed ∧
    detect { decPinned with pending := frameG } = .frame 21 := by decide

/-- X1's reply step: one chunk, `"hello"`, no response yet; and X14's, a failure, `STATUS` = 0x34. -/
theorem test_dec_reply :
    (tick toy (inCipher [] (frame1.drop 16) [.reply .dec 0])).decPort.sent = [.chunk hello] ∧
    (tick toy (inCipher [] ((frame1.drop 16).take 20) [.reply .dec 0])).rd .dec 0 = 0x34 := by decide

/-! ## Witnesses: for each statement with hypotheses, a state and operands that meet all of them -/

/-- The invariants hold of an idle encoder that is configured. -/
theorem encInv_ready (q : Port) (h : q.request = none) : EncInv encReady q where
  configured := fun _ => by decide
  off := fun hs => absurd hs (by decide)
  latch := by decide
  halted := by decide
  fault := by decide
  request := by simp [h, encReady]
  carried := by simp [h]
  fresh := by simp [h]

theorem encInv_halted (q : Port) (h : q.request = none) : EncInv encHalted q where
  configured := fun _ => by decide
  off := fun hs => absurd hs (by decide)
  latch := by decide
  halted := by decide
  fault := by decide
  request := by simp [h, encHalted]
  carried := by simp [h]
  fresh := by simp [h]

theorem decInv_ready (cap : Capacity) (q : Port) (h : q.request = none) : DecInv cap decReady q where
  configured := fun _ => by decide
  off := fun hs => absurd hs (by decide)
  atRest := by decide
  atRestUnprefixed := by decide
  capacity := rfl
  latch := by decide
  halted := by decide
  fault := by decide
  ended := by decide
  request := by simp [h, decReady]
  carried := by simp [h]
  fresh := by simp [h]

theorem decInv_halted (cap : Capacity) (q : Port) (h : q.request = none) : DecInv cap decHalted q where
  configured := fun _ => by decide
  off := fun hs => absurd hs (by decide)
  atRest := by decide
  atRestUnprefixed := by decide
  capacity := rfl
  latch := by decide
  halted := by decide
  fault := by decide
  ended := by decide
  request := by simp [h, decHalted, decReady]
  carried := by simp [h]
  fresh := by simp [h]

theorem encInv_cipher : EncInv encBusy (encBusyPort hello) where
  configured := fun _ => by decide
  off := fun hs => absurd hs (by decide)
  latch := by decide
  halted := by decide
  fault := by decide
  request := by decide
  carried := by
    rintro t r ⟨⟩
    rfl
  fresh := by
    rintro t r ⟨⟩
    decide

theorem decInv_cipher (cap : Capacity) : DecInv cap decBusy (decBusyPort (frame1.drop 16)) where
  configured := fun _ => by decide
  off := fun hs => absurd hs (by decide)
  atRest := by decide
  atRestUnprefixed := by decide
  capacity := rfl
  latch := by decide
  halted := by decide
  fault := by decide
  ended := by decide
  request := by decide
  carried := by
    rintro t r ⟨⟩
    decide
  fresh := by
    rintro t r ⟨⟩
    decide

/-- Both units in `CIPHER`, each on its own request. -/
theorem inv_cipher (cap : Capacity) (schedule : List Move) : (inCipher hello (frame1.drop 16) schedule).Inv cap :=
  ⟨encInv_cipher, decInv_cipher cap⟩

/-- A machine with `END` waiting at DEC's port, `CLOSE` at ENC's. -/
def closing (schedule : List Move) : State :=
  withCommands ⟨0x05#8, [], .invalid⟩ ⟨0x04#8, [], .invalid⟩ (ready schedule)

theorem inv_closing (cap : Capacity) (schedule : List Move) : (closing schedule).Inv cap :=
  ⟨encInv_ready _ rfl, decInv_ready cap _ rfl⟩

/-- A machine with an empty `ENCODE` and an empty `DECODE` waiting. -/
def working (schedule : List Move) : State :=
  withCommands ⟨0x02#8, [], .invalid⟩ ⟨0x03#8, [], .invalid⟩ (ready schedule)

theorem inv_working (cap : Capacity) (schedule : List Move) : (working schedule).Inv cap :=
  ⟨encInv_ready _ rfl, decInv_ready cap _ rfl⟩

theorem witness_StatusRegisterFields (cap : Capacity) :
    (inCipher hello (frame1.drop 16) []).Inv cap ∧ (machine encHalted decHalted []).Inv cap ∧ 9 ≤ 31 :=
  ⟨inv_cipher cap [], ⟨encInv_halted _ rfl, decInv_halted cap _ rfl⟩, by decide⟩

theorem witness_SecretsAreUnreadable :
    ∃ aad pending : Bytes, aad.length = (machine encPinned { decReady with pending := hello } []).enc.aad.length ∧
      pending.length = (machine encPinned { decReady with pending := hello } []).dec.pending.length ∧ pending ≠ hello :=
  ⟨bytes [0, 1], bytes [1, 2, 3, 4, 5], by decide⟩

theorem witness_StepKeepsInvariants :
    ∃ (s t : State), s.Inv Config.pendingCap ∧ step s = .next t ∧ t.enc.state = .cipher :=
  ⟨working [.unit .enc], _, inv_working _ _, rfl, rfl⟩

theorem witness_PendingIsAQueue :
    (∃ (s t : State), step s = .next t ∧ s.dec.state = .ready ∧ t.dec.state = .scan) ∧
    (∃ (s t : State), step s = .next t ∧ s.dec.state = .scan ∧ t.dec.state = .cipher ∧ s.dec.pending = frame1 ++ t.dec.pending) ∧
    ∃ (s t : State), step s = .next t ∧ s.dec.pending ≠ [] ∧ t.dec.pending = [] ∧ t.dec.state = .off :=
  ⟨⟨working [.unit .dec], _, rfl, rfl, rfl⟩,
   ⟨machine encReady { decReady with state := .scan, pending := frame1 } [.unit .dec], _, rfl, rfl, rfl, rfl⟩,
   ⟨machine encReady { decReady with pending := hello } [.rst .dec], _, rfl, by decide, rfl, rfl⟩⟩

theorem witness_OutputsPrecedeTheResponse :
    ∃ (s t : State), step s = .next t ∧ t.decPort.sent = s.decPort.sent ++ [.response .ok] :=
  ⟨closing [.unit .dec], _, rfl, rfl⟩

theorem witness_ConfigurationIsFixedWhileInUse :
    ∃ (s t : State), step s = .next t ∧ s.enc.state ≠ .off ∧ t.enc.state ≠ .off ∧ s.dec.state ≠ .off ∧ t.dec.state ≠ .off :=
  ⟨working [.unit .enc], _, rfl, by decide, by decide, by decide, by decide⟩

theorem witness_UnitsAreIndependent :
    (∃ (s s' t : State), s.schedule = [.unit .enc] ∧ s'.schedule = [.unit .enc] ∧ step s = .next t ∧ s'.encSide = s.encSide ∧
      s' ≠ s) ∧
    ∃ (s s' t : State), s.schedule = [.unit .dec] ∧ s'.schedule = [.unit .dec] ∧ step s = .next t ∧ s'.decSide = s.decSide ∧
      s' ≠ s :=
  ⟨⟨closing [.unit .enc], { closing [.unit .enc] with dec := decHalted }, _, rfl, rfl, rfl, rfl, by decide⟩,
   ⟨closing [.unit .dec], { closing [.unit .dec] with enc := encHalted }, _, rfl, rfl, rfl, rfl, by decide⟩⟩

/-- Every handle replaced by its successor. -/
def nextHandle : Key → Key
  | .invalid => .invalid
  | .handle n => .handle (n + 1)

theorem witness_KeyIsNeverInspected :
    (∀ k, nextHandle k = .invalid ↔ k = .invalid) ∧
    (∀ data k nonce aad T, plain.encrypt data (nextHandle k) nonce aad T = plain.encrypt data k nonce aad T) ∧
    (∀ data k nonce aad T, plain.decrypt data (nextHandle k) nonce aad T = plain.decrypt data k nonce aad T) ∧
    ∃ (t : State), stepUnder plain (working [.unit .enc]) = .next t :=
  ⟨fun k => by cases k <;> simp [nextHandle], fun _ _ _ _ _ => rfl, fun _ _ _ _ _ => rfl, _, rfl⟩

/-- All four layouts, and the frame of the defaults. -/
theorem witness_FrameLayouts :
    (∃ (ctTag F : Bytes), encReady.currentNonce.length = encReady.N ∧ ctTag.length = 5 + encReady.T / 8 ∧
      assemble encReady ctTag = some F ∧ F.length = 37) ∧
    (∃ (ctTag F : Bytes), encPinned.currentNonce.length = encPinned.N ∧ ctTag.length = 0 + encPinned.T / 8 ∧
      assemble encPinned ctTag = some F) ∧
    (∃ (ctTag F : Bytes), ctTag.length = 3 + 32 / 8 ∧ assemble { encPinned with LP := true, T := 32 } ctTag = some F) ∧
    ∃ (ctTag F : Bytes), ctTag.length = 0 + encReady.T / 8 ∧ assemble { encReady with LP := false } ctTag = some F :=
  ⟨⟨frame1.drop 16, frame1, by decide⟩, ⟨run16 0 16, _, rfl, rfl, rfl⟩, ⟨run16 0 7, _, rfl, rfl⟩,
   ⟨run16 0 16, _, rfl, rfl⟩⟩

/-- A record with both nonce bits and additional data, its length at the bounds of what a test can write. -/
def fullRecord : ConfigRecord where
  LP := true
  NIF := true
  EXT := true
  N := 2
  T := 2 ^ 32 - 1
  A := 3
  extNonce := [0xFF#8, 0x00#8]
  aad := [1#8, 2#8, 3#8]

theorem witness_ConfigRecordsRoundTrip :
    (fullRecord.N ≤ lmax ∧ fullRecord.T ≤ lmax ∧ fullRecord.A ≤ lmax ∧
      fullRecord.extNonce.length = (if fullRecord.EXT then fullRecord.N else 0) ∧ fullRecord.aad.length = fullRecord.A) ∧
    ConfigRecord.defaults.extNonce.length = (if ConfigRecord.defaults.EXT then ConfigRecord.defaults.N else 0) ∧
    ConfigRecord.defaults.aad.length = 0 := by decide

theorem witness_EveryRecordBitIsRead :
    (13 ≤ (writeRecord .enc fullRecord).length ∧ recordFlags (writeRecord .enc fullRecord) >>> 3 = 0#8 ∧
      (writeRecord .enc fullRecord).length = (readRecord .enc (writeRecord .enc fullRecord)).length .enc) ∧
    13 ≤ (bytes [3, 0, 0, 0, 12, 0, 0, 0, 0x80, 0, 0, 0, 0]).length ∧
    recordFlags (bytes [3, 0, 0, 0, 12, 0, 0, 0, 0x80, 0, 0, 0, 0]) >>> 3 = 0#8 ∧
    (bytes [3, 0, 0, 0, 12, 0, 0, 0, 0x80, 0, 0, 0, 0]).length =
      (readRecord .dec (bytes [3, 0, 0, 0, 12, 0, 0, 0, 0x80, 0, 0, 0, 0])).length .dec := by decide

theorem witness_LengthFieldCodec : 0 ≤ 2 ^ 32 - 1 ∧ 4294967295 ≤ 2 ^ 32 - 1 := by decide

theorem witness_ByteUtilityLaws :
    (255 < 256 ∧ 256 ≤ 2 ^ 32 - 1) ∧ (be32Enc 37).length = 4 ∧
    3 ≤ ({ decReady with pending := hello } : DecoderState).pending.length ∧
    3 + 2 ≤ ({ decReady with pending := hello } : DecoderState).pending.length := by decide

theorem witness_AccumulatorAccesses :
    5 ≤ ({ decReady with pending := hello } : DecoderState).pending.length ∧
    4 < ({ decReady with pending := hello } : DecoderState).pending.length := by decide

/-- E11 and E12: the longest chunk that fits and the shortest that does not. -/
theorem witness_EncodeIssueStep :
    ∃ long short : Bytes, (ready []).enc.state = .ready ∧ (ready []).enc.LP = true ∧
      2 ^ 32 - 1 < 4 + 12 + long.length + 16 + 0 ∧ ¬2 ^ 32 - 1 < 4 + 12 + short.length + 16 + 0 :=
  ⟨List.replicate 4294967264 0#8, List.replicate 4294967263 0#8, rfl, rfl,
    by rw [List.length_replicate]; decide, by rw [List.length_replicate]; decide⟩

theorem witness_EncodeRunsToItsResponse : (ready []).enc.state = .ready ∧ (ready []).enc.inflight = .none := ⟨rfl, rfl⟩

theorem witness_EncodeReplyEmitsThenRotates :
    ∃ (s : State) (r : CipherRequest) (ctTag F : Bytes), s.schedule = [.reply .enc 0] ∧ s.enc.state = .cipher ∧ s.encPort.request = some (0, r) ∧
      r.op = .encrypt ∧ toy.encrypt r.data r.key r.nonce r.aad r.T = some ctTag ∧ assemble s.enc ctTag = some F :=
  ⟨inCipher hello [] [.reply .enc 0], _, _, _, rfl, rfl, rfl, rfl, rfl, rfl⟩

theorem witness_CipherErrorKeepsTheNonce :
    ∃ (s : State) (r : CipherRequest), s.schedule = [.reply .enc 0] ∧ s.enc.state = .cipher ∧ s.encPort.request = some (0, r) ∧ r.op = .encrypt ∧
      failing.encrypt r.data r.key r.nonce r.aad r.T = none ∧
      (s.enc.LP = true → 4 + s.enc.W + hello.length + s.enc.TB + s.enc.A ≤ lmax) :=
  ⟨inCipher hello [] [.reply .enc 0], _, rfl, rfl, rfl, rfl, rfl, by decide⟩

theorem assemble_oversized (L : Bytes) (h : L.length = 2 ^ 32) : assemble encBusy L = none := by
  have hb : lmax < 4 + (encBusy.body L).length := by
    simp only [EncoderState.body, List.length_append, h, lmax]
    omega
  unfold assemble
  rw [if_pos (show encBusy.LP = true from rfl), if_pos hb]

theorem witness_OversizeFramesAreNeverEmitted :
    ∃ (s : State) (r : CipherRequest) (ctTag : Bytes), s.schedule = [.reply .enc 0] ∧ s.enc.state = .cipher ∧
      s.encPort.request = some (0, r) ∧ r.op = .encrypt ∧
      oversized.encrypt r.data r.key r.nonce r.aad r.T = some ctTag ∧ assemble s.enc ctTag = none :=
  ⟨inCipher hello [] [.reply .enc 0], _, List.replicate (2 ^ 32) 0#8, rfl, rfl, rfl, rfl, rfl,
    assemble_oversized _ List.length_replicate⟩

/-- Both modes of `ASSEMBLE` when the frame fits. -/
theorem witness_OversizeFramesAreNeverEmitted_fits :
    encReady.LP = true ∧ 4 + ((if encReady.NIF then encReady.currentNonce else []) ++ hello ++ encReady.aad).length ≤
      2 ^ 32 - 1 ∧ encPinned.LP = false := by decide

theorem witness_EmittedFramesCarryTheirLength :
    stepUnder toy (inCipher hello [] [.reply .enc 0]) = .next (tick toy (inCipher hello [] [.reply .enc 0])) ∧
    (inCipher hello [] [.reply .enc 0]).enc.LP = true ∧
    .chunk frame1 ∈ (tick toy (inCipher hello [] [.reply .enc 0])).encPort.sent :=
  ⟨rfl, rfl, by decide⟩

/-- Both modes; `test_detect` shows each answer. -/
theorem witness_BoundaryDetector : decReady.LP = true ∧ decPinned.LP = false := ⟨rfl, rfl⟩

theorem witness_DecodeAppendsTheChunk :
    (ready []).dec.state = .ready ∧
    ∀ cap, Config.pendingCap = some cap → (ready []).dec.pending.length + ([] : Bytes).length ≤ cap :=
  ⟨rfl, fun cap _ => Nat.zero_le cap⟩

/-- No capacity; a capacity met exactly; a capacity exceeded by one byte. -/
theorem witness_FiniteCapacityOverflows :
    (ready []).dec.state = .ready ∧ toy.pendingCap = none ∧
    (∃ cap, ({ toy with pendingCap := some 5 } : Params).pendingCap = some cap ∧
      (ready []).dec.pending.length + hello.length ≤ cap) ∧
    ∃ cap, ({ toy with pendingCap := some 4 } : Params).pendingCap = some cap ∧
      cap < (ready []).dec.pending.length + hello.length :=
  ⟨rfl, rfl, ⟨5, rfl, by decide⟩, ⟨4, rfl, by decide⟩⟩

theorem witness_DecodeRunsToItsResponse : (ready []).Inv Config.pendingCap ∧ (ready []).dec.state = .ready :=
  ⟨⟨encInv_ready _ rfl, decInv_ready _ _ rfl⟩, rfl⟩

theorem witness_ScanStep :
    (∃ (s : State), s.schedule = [.unit .dec] ∧ s.dec.state = .scan ∧ detect s.dec = .wait) ∧
    (∃ (s : State), s.schedule = [.unit .dec] ∧ s.dec.state = .scan ∧ detect s.dec = .malformed) ∧
    ∃ (s : State), s.schedule = [.unit .dec] ∧ s.dec.state = .scan ∧ detect s.dec = .frame 37 :=
  ⟨⟨machine encReady { decReady with state := .scan } [.unit .dec], rfl, rfl, rfl⟩,
   ⟨machine encReady { decReady with state := .scan, pending := bytes [0, 0, 0, 0x1F] } [.unit .dec], rfl, rfl, rfl⟩,
   ⟨machine encReady { decReady with state := .scan, pending := frame1 } [.unit .dec], rfl, rfl, rfl⟩⟩

theorem witness_ParsedPartsCoverTheFrame :
    ({ decReady with pending := frame1 } : DecoderState).Configured ∧
    detect { decReady with pending := frame1 } = .frame 37 ∧
    ({ decPinned with pending := frameG } : DecoderState).Configured ∧
    detect { decPinned with pending := frameG } = .frame 21 := by decide

theorem witness_DecodeReplyEmitsPlaintextAndAad :
    ∃ (s : State) (r : CipherRequest) (plaintext : Bytes), s.schedule = [.reply .dec 0] ∧ s.dec.state = .cipher ∧ s.dec.inflight = .decReq [] ∧
      s.decPort.request = some (0, r) ∧ r.op = .decrypt ∧
      toy.decrypt r.data r.key r.nonce r.aad r.T = some plaintext :=
  ⟨inCipher hello (frame1.drop 16) [.reply .dec 0], _, hello, rfl, rfl, rfl, rfl, rfl, by decide⟩

theorem witness_DecryptFailureHaltsTheDecoder :
    ∃ (s : State) (r : CipherRequest), s.schedule = [.reply .dec 0] ∧ s.dec.state = .cipher ∧ s.decPort.request = some (0, r) ∧ r.op = .decrypt ∧
      toy.decrypt r.data r.key r.nonce r.aad r.T = none :=
  ⟨inCipher hello (run16 0 21) [.reply .dec 0], _, rfl, rfl, rfl, rfl, by decide⟩

theorem witness_DecodeLoopEnds :
    ({ decReady with pending := frame1 } : DecoderState).Configured ∧
    ({ decReady with pending := frame1 } : DecoderState).pending.length < 38 := by decide

/-- S1's split: after 10 bytes and after 30. -/
theorem witness_FragmentationInvariance :
    toy.pendingCap = none ∧ decReady.Configured ∧ decReady.LP = true ∧ decReady.state = .ready ∧
    decReady.inflight = .none ∧ decReady.NoCompleteFrame ∧
    [frame1].flatten = [frame1.take 10, (frame1.drop 10).take 20, frame1.drop 30].flatten := by decide

theorem plain_aeadLen : AeadLen plain := by
  refine ⟨fun data key nonce aad T c h => ?_, fun c key nonce aad T data h => ?_⟩
  · cases h
    simp
  · simp only [plain] at h
    split at h
    · cases h
    · cases h
      simp only [List.length_take]
      omega

theorem plain_aeadRoundtrip : AeadRoundtrip plain := by
  intro data key nonce aad T c h
  cases h
  simp [plain]

/-- A prefixed stream and an unprefixed one with a pinned nonce. -/
theorem witness_RoundTrip :
    AeadLen plain ∧ AeadRoundtrip plain ∧ plain.pendingCap = none ∧
    (∃ (e' : EncoderState) (F : Bytes), encReady.Configured ∧ decReady.Configured ∧ Matches encReady decReady ∧ decReady.state = .ready ∧
      decReady.inflight = .none ∧ decReady.pending = [] ∧
      encodeWhole plain (run16 0 12) encReady hello = ⟨e', [F], .ok⟩) ∧
    ∃ (e' : EncoderState) (F : Bytes), encPinned.Configured ∧ decPinned.Configured ∧ Matches encPinned decPinned ∧ decPinned.state = .ready ∧
      decPinned.inflight = .none ∧ decPinned.pending = [] ∧
      encodeWhole plain (run16 0 12) encPinned hello = ⟨e', [F], .ok⟩ :=
  ⟨plain_aeadLen, plain_aeadRoundtrip, rfl,
   ⟨_, _, by decide, by decide, by decide, rfl, rfl, rfl, rfl⟩,
   ⟨_, _, by decide, by decide, by decide, rfl, rfl, rfl, rfl⟩⟩

theorem witness_BatchedFramesAllDecode :
    ∃ (e' e'' : EncoderState) (F F' : Bytes), AeadLen plain ∧ AeadRoundtrip plain ∧ plain.pendingCap = none ∧ encReady.Configured ∧
      (run16 0 12).length = encReady.N ∧ decReady.Configured ∧ Matches encReady decReady ∧ encReady.LP = true ∧
      decReady.state = .ready ∧ decReady.inflight = .none ∧ decReady.pending = [] ∧ (run16 0 3).length < 4 ∧
      encodeWhole plain (run16 0 12) encReady hello = ⟨e', [F], .ok⟩ ∧
      encodeWhole plain (run16 1 12) e' [] = ⟨e'', [F'], .ok⟩ :=
  ⟨_, _, _, _, plain_aeadLen, plain_aeadRoundtrip, rfl, by decide, rfl, by decide, by decide, rfl, rfl, rfl, rfl,
    by decide, rfl, rfl⟩

/-- F1 with its last byte changed. -/
theorem witness_NothingAfterAFailedFrame :
    toy.pendingCap = none ∧ decReady.LP = true ∧ decReady.pending = [] ∧
    decReady.lmin ≤ (frame1.take 36 ++ [0#8]).length ∧
    be32Dec (slice (frame1.take 36 ++ [0#8]) 0 4) = (frame1.take 36 ++ [0#8]).length ∧
    toy.decrypt (parse decReady (frame1.take 36 ++ [0#8])).ctTag decReady.key
      (parse decReady (frame1.take 36 ++ [0#8])).nonce (parse decReady (frame1.take 36 ++ [0#8])).aad decReady.T =
        none := by decide

theorem witness_EncConfigLoadsTheRecord :
    State.reset.enc.state = .off ∧ firstFailure .enc (.handle 0) [] = none ∧
    firstFailure .enc (.handle 0)
      (bytes [0x07, 0, 0, 0, 2, 0, 0, 0, 0x80, 0, 0, 0, 1] ++ bytes [0x11, 0x11, 0xCA]) = none := by decide

theorem witness_DecConfigLoadsTheRecord :
    State.reset.dec.state = .off ∧ firstFailure .dec (.handle 0) [] = none ∧
    firstFailure .dec (.handle 0)
      (bytes [0x04, 0, 0, 0, 2, 0, 0, 0, 0x80, 0, 0, 0, 1] ++ bytes [0x11, 0x11]) = none := by decide

/-- For the clauses about `RST`, `CLOSE`, a failed `CONFIG` and the registers. -/
theorem witness_ResetState :
    (ready [.rst .enc]).schedule = [.rst .enc] ∧ (ready [.rst .dec]).schedule = [.rst .dec] ∧
    (machine encHalted decHalted []).enc.state ≠ .cipher ∧ (machine encHalted decHalted []).dec.state ≠ .scan ∧
    (machine encHalted decHalted []).dec.state ≠ .cipher ∧ State.reset.enc.state = .off ∧ State.reset.dec.state = .off ∧
    firstFailure .enc .invalid [] ≠ none ∧ firstFailure .dec .invalid [] ≠ none ∧
    State.reset.enc = EncoderState.resetWith (List.replicate 12 0#8) ∧
    State.reset.dec = DecoderState.resetWith (List.replicate 12 0#8) := by decide

theorem witness_FailedConfigConsumesNothing :
    State.reset.enc.state = .off ∧ firstFailure .enc (.handle 0) [0x03#8, 0#8, 0#8] ≠ none ∧
    State.reset.dec.state = .off ∧ firstFailure .dec (.handle 0) [0x03#8, 0#8, 0#8] ≠ none := by decide

theorem witness_EndOfInput :
    (ready []).dec.state = .ready ∧ (ready []).dec.pending = [] ∧
    (machine encReady { decReady with pending := hello } []).dec.state = .ready ∧
    (machine encReady { decReady with pending := hello } []).dec.pending ≠ [] := by decide

/-- The shortest and the longest strict prefix of F1. -/
theorem witness_TruncationIsSurfaced :
    toy.pendingCap = none ∧ decReady.Configured ∧ decReady.LP = true ∧ decReady.state = .ready ∧
    decReady.inflight = .none ∧ decReady.pending = [] ∧ decReady.lmin ≤ frame1.length ∧
    be32Dec (slice frame1 0 4) = frame1.length ∧ 0 < 1 ∧ 1 < frame1.length ∧ 36 < frame1.length ∧
    (machine encReady { decReady with pending := frame1.take 36 } []).dec =
      { decReady with pending := frame1.take 36 } := by decide

/-- Every stable phase of both units. -/
theorem witness_CloseDestroysTheInstance :
    (∀ e ∈ [encReady, encHalted, State.reset.enc], (machine e decReady []).enc.state ≠ .cipher) ∧
    ∀ d ∈ [decReady, decHalted, State.reset.dec, { decReady with state := .ended }],
      (machine encReady d []).dec.state ≠ .scan ∧ (machine encReady d []).dec.state ≠ .cipher := by decide

theorem witness_CommandsOutOfPhase :
    ((Instr.encEncode hello).unit = .enc ∧ Instr.encEncode hello ≠ .encClose ∧ State.reset.enc.state = .off ∧
      (∀ k b, Instr.encEncode hello ≠ .encConfig k b)) ∧
    ((Instr.encConfig .invalid []).unit = .enc ∧ (ready []).enc.state = .ready ∧
      (∀ b, Instr.encConfig .invalid [] ≠ .encEncode b) ∧ (machine encHalted decReady []).enc.state = .halted) ∧
    (Instr.decEnd.unit = .dec ∧ Instr.decEnd ≠ .decClose ∧ State.reset.dec.state = .off ∧
      (∀ k b, Instr.decEnd ≠ .decConfig k b)) ∧
    (ready []).dec.state = .ready ∧ (∃ k b, Instr.decConfig .invalid [] = .decConfig k b) ∧
    (machine encReady { decReady with state := .ended } []).dec.state = .ended ∧
    (machine encReady decHalted []).dec.state = .halted :=
  ⟨⟨rfl, nofun, rfl, nofun⟩, ⟨rfl, rfl, nofun, rfl⟩, ⟨rfl, nofun, rfl, nofun⟩, rfl, ⟨_, _, rfl⟩, rfl, rfl⟩

theorem witness_BusyPortHoldsTheCommand :
    (inCipher hello [] []).busy Instr.encClose.unit = true ∧ (inCipher hello [] []).busy Instr.decEnd.unit = true ∧
    (machine encReady { decReady with state := .scan } []).busy Instr.decClose.unit = true := ⟨rfl, rfl, rfl⟩

/-- Q27: the code 00 at a halted unit, the codes 03 at ENC and 02 at DEC. -/
theorem witness_UnknownCodesAreRejected :
    (∃ (s : State) (c : Command), s.schedule = [.unit .enc] ∧ s.enc.state ≠ .cipher ∧ s.encPort.commands = [c] ∧ c.code ≠ 0x01#8 ∧
      c.code ≠ 0x02#8 ∧ c.code ≠ 0x05#8) ∧
    ∃ (s : State) (c : Command), s.schedule = [.unit .dec] ∧ s.dec.state ≠ .scan ∧ s.dec.state ≠ .cipher ∧ s.decPort.commands = [c] ∧
      c.code ≠ 0x01#8 ∧ c.code ≠ 0x03#8 ∧ c.code ≠ 0x04#8 ∧ c.code ≠ 0x05#8 :=
  ⟨⟨withCommands ⟨0x03#8, [], .invalid⟩ ⟨0x02#8, [], .invalid⟩ (machine encHalted decReady [.unit .enc]), _,
      rfl, by decide, rfl, by decide, by decide, by decide⟩,
   ⟨withCommands ⟨0x03#8, [], .invalid⟩ ⟨0x02#8, [], .invalid⟩ (ready [.unit .dec]), _,
      rfl, by decide, by decide, rfl, by decide, by decide, by decide, by decide⟩⟩

theorem witness_HaltedUnitsStayHalted :
    (∃ (s t : State), step s = .next t ∧ s.enc.state = .halted ∧ t.enc.state = .halted) ∧
    ∃ (s t : State), step s = .next t ∧ s.dec.state = .halted ∧ t.dec.state = .halted :=
  ⟨⟨withCommands ⟨0x02#8, [], .invalid⟩ ⟨0x04#8, [], .invalid⟩ (machine encHalted decHalted [.unit .enc]), _,
      rfl, rfl, rfl⟩,
   ⟨withCommands ⟨0x02#8, [], .invalid⟩ ⟨0x04#8, [], .invalid⟩ (machine encHalted decHalted [.unit .dec]), _,
      rfl, rfl, rfl⟩⟩

theorem witness_PhaseTransitions :
    (∃ (s t : State), step s = .next t ∧ (s.enc.state, t.enc.state) = (.ready, .cipher)) ∧
    ∃ (s t : State), step s = .next t ∧ (s.dec.state, t.dec.state) = (.ready, .ended) :=
  ⟨⟨working [.unit .enc], _, rfl, rfl⟩, ⟨closing [.unit .dec], _, rfl, rfl⟩⟩

/-- On ENC with a tag length no record can hold, on DEC with bytes left over at `END`. -/
theorem witness_FatalErrorEntry :
    (∃ (s t : State), step s = .next t ∧ s.enc.state ≠ .halted ∧ t.enc.state = .halted) ∧
    ∃ (s t : State), step s = .next t ∧ s.dec.state ≠ .halted ∧ t.dec.state = .halted :=
  ⟨⟨withCommands ⟨0x02#8, [], .invalid⟩ ⟨0x04#8, [], .invalid⟩
      (machine { encReady with T := 2 ^ 40 } decReady [.unit .enc]), _, rfl, by decide, rfl⟩,
   ⟨withCommands ⟨0x02#8, [], .invalid⟩ ⟨0x04#8, [], .invalid⟩
      (machine encReady { decReady with pending := hello } [.unit .dec]), _, rfl, by decide, rfl⟩⟩

theorem witness_FaultIsSticky :
    ∃ (s t : State), s.Inv Config.pendingCap ∧ step s = .next t ∧ s.enc.fault ≠ .none ∧ s.dec.fault ≠ .none :=
  ⟨machine encHalted decHalted [.read .enc 0], _, ⟨encInv_halted _ rfl, decInv_halted _ _ rfl⟩, rfl, by decide, by decide⟩

theorem witness_ResetInput :
    (inCipher hello [] [.rst .enc]).schedule = [.rst .enc] ∧ (inCipher hello [] [.rst .dec]).schedule = [.rst .dec] :=
  ⟨rfl, rfl⟩

theorem witness_LateRepliesAreIgnored :
    ∃ (s t t' : State) (r : CipherRequest), s.Inv Config.pendingCap ∧ s.schedule = [.rst .enc] ∧ (s.port .enc).request = some (0, r) ∧
      step s = .next t ∧ Host.Core.run core 1 { t with schedule := [.read .enc 0] } = .next t' :=
  ⟨inCipher hello (frame1.drop 16) [.rst .enc], _, _, _, inv_cipher _ _, rfl, rfl, rfl, rfl⟩

theorem witness_OnlyTheReplyOrResetEndsCipher :
    ∃ (s t : State) (r r' : CipherRequest), s.enc.state = .cipher ∧ s.encPort.request = some (0, r) ∧ s.dec.state = .cipher ∧
      s.decPort.request = some (0, r') ∧ Move.reply .enc 0 ∉ [Move.unit .enc] ∧ Move.rst .enc ∉ [Move.unit .enc] ∧
      Move.reply .dec 0 ∉ [Move.unit .enc] ∧ Move.rst .dec ∉ [Move.unit .enc] ∧
      Host.Core.run core 1 { s with schedule := [.unit .enc] } = .next t :=
  ⟨inCipher hello (frame1.drop 16) [], _, _, _, rfl, rfl, rfl, rfl, by decide, by decide, by decide, by decide, rfl⟩

theorem witness_OfferedCommandsWait :
    (ready [.offer .enc ⟨0x05#8, [], .invalid⟩]).schedule = [.offer .enc ⟨0x05#8, [], .invalid⟩] ∧
    (ready [.offer .dec ⟨0x05#8, [], .invalid⟩]).schedule = [.offer .dec ⟨0x05#8, [], .invalid⟩] := ⟨rfl, rfl⟩

theorem witness_StepRunsTheDecodedCommand :
    (∃ (s : State) (c : Command) (i : Instr), s.schedule = [.unit .enc] ∧ s.busy .enc = false ∧ s.encPort.commands = [c] ∧ decode .enc c = .ok i ∧
      i.wellFormed Config.maxChunk = true ∧ i = .encEncode []) ∧
    ∃ (s : State) (c : Command) (i : Instr), s.schedule = [.unit .dec] ∧ s.busy .dec = false ∧ s.decPort.commands = [c] ∧ decode .dec c = .ok i ∧
      i.wellFormed Config.maxChunk = true ∧ i = .decDecode [] :=
  ⟨⟨working [.unit .enc], _, _, rfl, rfl, rfl, rfl, rfl, rfl⟩, ⟨working [.unit .dec], _, _, rfl, rfl, rfl, rfl, rfl, rfl⟩⟩

end Sys2Proof.Tests
end

section
/-! The accumulator's capacity (20_memory R41): the two outcomes of `DECODE` in `READY`. -/

namespace Sys2Proof.Machine

/-- Infinite, or finite and not below `n`: the two ways in which `n` bytes fit. -/
theorem allows_iff_none_or_le (cap : Capacity) (n : Nat) :
    cap.allows n = true ↔ cap = none ∨ ∃ c, cap = some c ∧ n ≤ c := by
  rw [allows_iff]
  cases cap <;> simp

/-- Only a finite capacity below `n` refuses `n` bytes. -/
theorem not_allows_iff_lt (cap : Capacity) (n : Nat) :
    ¬ cap.allows n = true ↔ ∃ c, cap = some c ∧ c < n := by
  simp [allows_iff]

theorem decDecode_ready (p : Params) (chunk : Bytes) {s : State} (h : s.dec.state = .ready) :
    decDecode p chunk s = decAccept p chunk s := by
  simp only [decDecode, h]

/-- The append of 43_frame_decoder R87 step 1, when the capacity check passes. -/
theorem decAccept_fits {p : Params} {chunk : Bytes} {s : State}
    (h : p.pendingCap.allows (s.dec.pending.length + chunk.length) = true) :
    decAccept p chunk s =
      { s with dec := { s.dec with pending := s.dec.pending ++ chunk, state := .scan } } := if_pos h

/-- The overflow of 20_memory R41, when the capacity check refuses. -/
theorem decAccept_overflows {p : Params} {chunk : Bytes} {s : State}
    (h : ¬ p.pendingCap.allows (s.dec.pending.length + chunk.length) = true) :
    decAccept p chunk s = raiseFatal .dec .overflow s := if_neg h

theorem runWith_decDecode_ready (p : Params) (chunk : Bytes) {s : State} (h : s.dec.state = .ready) :
    runWith p (.decDecode chunk) s = .next (decAccept p chunk s) :=
  congrArg Host.Outcome.next (decDecode_ready p chunk h)

/-- Settles O27: in `READY` the command is the capacity check, and the hypotheses of the two clauses are its two answers. -/
theorem finiteCapacityOverflows : Obligations.FiniteCapacityOverflows := by
  intro p s chunk hready
  rw [runWith_decDecode_ready p chunk hready]
  constructor
  · intro hfits
    rw [decAccept_fits ((allows_iff_none_or_le _ _).2 hfits)]
  · intro hover
    rw [decAccept_overflows ((not_allows_iff_lt _ _).2 hover), raiseFatal_dec]
    rfl

end Sys2Proof.Machine
end

section
/-! The fields of an assembled frame (30_encoding R45 to R49). -/

namespace Sys2Proof.Machine

/-- The slice between what precedes `b` and what follows it is `b`. -/
theorem slice_append_middle (a b c : Bytes) : slice (a ++ b ++ c) a.length (a.length + b.length) = b := by
  rw [slice, ← List.length_append, List.take_left, List.drop_left]

/-- The slice after a prefix that leaves `b` at the end is `b`. -/
theorem slice_append_right (a b : Bytes) :
    slice (a ++ b) ((a ++ b).length - b.length) (a ++ b).length = b := by
  rw [slice_to_end, List.length_append, Nat.add_sub_cancel, List.drop_left]

/-- An assembled frame is its four fields in the order of 30_encoding R45, and the length field counts all of it. -/
theorem assemble_fields {e : EncoderState} {ctTag F : Bytes} (h : assemble e ctTag = some F) :
    F = (if e.LP then be32Enc F.length else []) ++ (if e.NIF then e.currentNonce else []) ++ ctTag ++ e.aad := by
  obtain ⟨hF, -⟩ := assemble_some h
  have hlen : e.LP = true → F.length = 4 + (e.body ctTag).length := by
    intro hlp
    rw [hF, if_pos hlp, List.length_append, be32Enc_length]
  cases hlp : e.LP with
  | true => simpa [hlp, hlen hlp, EncoderState.body] using hF
  | false => simpa [hlp, EncoderState.body] using hF

/-- The indices of four fields laid one after another, the third ending where the fourth begins. -/
theorem slices_of_four_fields (a b c d F : Bytes) (h : F = a ++ b ++ c ++ d) :
    slice F 0 a.length = a ∧ slice F a.length (a.length + b.length) = b ∧
    slice F (a.length + b.length) (F.length - d.length) = c ∧ slice F (F.length - d.length) F.length = d := by
  subst h
  refine ⟨?_, ?_, ?_, slice_append_right (a ++ b ++ c) d⟩
  · simpa using slice_append_middle [] a (b ++ c ++ d)
  · simpa using slice_append_middle a b (c ++ d)
  · have hend : (a ++ b ++ c ++ d).length - d.length = (a ++ b).length + c.length := by
      simp only [List.length_append, Nat.add_sub_cancel]
    rw [hend, ← List.length_append, slice_append_middle]

theorem lengthField_length (e : EncoderState) (n : Nat) :
    (if e.LP then be32Enc n else []).length = if e.LP then 4 else 0 := by
  cases e.LP <;> rfl

theorem nonceField_length {e : EncoderState} (h : e.currentNonce.length = e.N) :
    (if e.NIF then e.currentNonce else []).length = if e.NIF then e.N else 0 := by
  cases e.NIF
  · rfl
  · exact h

/-- Settles O11: the frame is its four fields one after another, so the field lengths give the indices. -/
theorem frameLayouts : Obligations.FrameLayouts := by
  intro e ctTag F P hnonce hct hF H W
  have hfields := assemble_fields hF
  have hlen : F.length = H + W + P + e.T / 8 + e.aad.length := by
    have := congrArg List.length hfields
    simp only [List.length_append, lengthField_length, nonceField_length hnonce, hct] at this
    omega
  obtain ⟨hlength, hnonceField, hctTag, haad⟩ := slices_of_four_fields _ _ _ _ F hfields
  rw [lengthField_length] at hlength hnonceField hctTag
  rw [nonceField_length hnonce] at hnonceField hctTag
  refine ⟨hlen, hlength, hnonceField, hctTag, haad, ?_⟩
  intro hlp hnif hN hT hA
  simp only [H, W, hlp, hnif, hN, hT, hA, if_true, List.length_nil] at hlen
  omega

end Sys2Proof.Machine
end

section
/-! The table of command codes (30_encoding R50). -/

namespace Sys2Proof.Machine

/-- Every case of the decoder but its last wants a port or a code that the command does not have. -/
theorem decode_enc_unknown {c : Command} (h1 : c.code ≠ 0x01#8) (h2 : c.code ≠ 0x02#8) (h5 : c.code ≠ 0x05#8) :
    decode .enc c = .error (.unknownCode c.code) := by
  rw [Ne, BitVec.toNat_eq] at h1 h2 h5
  unfold decode
  split
  case h_8 => rfl
  all_goals contradiction

theorem decode_dec_unknown {c : Command} (h1 : c.code ≠ 0x01#8) (h3 : c.code ≠ 0x03#8) (h4 : c.code ≠ 0x04#8)
    (h5 : c.code ≠ 0x05#8) : decode .dec c = .error (.unknownCode c.code) := by
  rw [Ne, BitVec.toNat_eq] at h1 h3 h4 h5
  unfold decode
  split
  case h_8 => rfl
  all_goals contradiction

/-- Settles O12: a code of the unit's row is decoded by computation, any other is unknown. -/
theorem commandCodesDecode : Obligations.CommandCodesDecode := by
  rintro ⟨code, payload, key⟩
  constructor
  · split_ifs with h1 h2 h5
    · cases h1; rfl
    · cases h2; rfl
    · cases h5; rfl
    · exact decode_enc_unknown h1 h2 h5
  · split_ifs with h1 h3 h4 h5
    · cases h1; rfl
    · cases h3; rfl
    · cases h4; rfl
    · cases h5; rfl
    · exact decode_dec_unknown h1 h3 h4 h5

end Sys2Proof.Machine
end

section
/-! The big-endian length field (40_byte_utilities R60, R61, R67 (a)). -/

namespace Sys2Proof.Machine

/-- The bytes of `BE32.ENC(n)` as numbers: its four base-256 digits. -/
theorem be32Enc_toNat (n : Nat) :
    (be32Enc n).map BitVec.toNat = [n / 2 ^ 24 % 256, n / 2 ^ 16 % 256, n / 2 ^ 8 % 256, n % 256] := by
  simp [be32Enc]

@[simp] theorem be32Dec_four (a b c d : Byte) :
    be32Dec [a, b, c, d] = a.toNat * 2 ^ 24 + b.toNat * 2 ^ 16 + c.toNat * 2 ^ 8 + d.toNat := rfl

/-- Four bytes spell no number above `LMAX`. -/
theorem be32Dec_four_le (a b c d : Byte) : be32Dec [a, b, c, d] ≤ 2 ^ 32 - 1 := by
  rw [be32Dec_four]
  omega

theorem be32Dec_be32Enc {n : Nat} (h : n ≤ 2 ^ 32 - 1) : be32Dec (be32Enc n) = n := by
  simp only [be32Enc, be32Dec_four, BitVec.toNat_ofNat]
  omega

/-- A byte is the base-256 digit it contributes to the number. -/
theorem be32Enc_be32Dec {bs : Bytes} (h : bs.length = 4) : be32Enc (be32Dec bs) = bs := by
  obtain ⟨a, b, c, d, rfl⟩ := List.length_eq_four.1 h
  refine List.map_injective_iff.2 (fun _ _ => BitVec.eq_of_toNat_eq) ?_
  rw [be32Enc_toNat, be32Dec_four]
  simp only [List.map_cons, List.map_nil, List.cons.injEq, and_true]
  omega

theorem be32Enc_injective {n m : Nat} (hn : n ≤ 2 ^ 32 - 1) (hm : m ≤ 2 ^ 32 - 1) (h : be32Enc n = be32Enc m) :
    n = m := by
  rw [← be32Dec_be32Enc hn, h, be32Dec_be32Enc hm]

/-- The most significant digit comes first, so the first quotient that differs orders the numbers. -/
theorem be32Enc_toNat_lt {n m : Nat} (hlt : n < m) (hm : m ≤ 2 ^ 32 - 1) :
    (be32Enc n).map BitVec.toNat < (be32Enc m).map BitVec.toNat := by
  have hle (q : Nat) : n / q ≤ m / q := Nat.div_le_div_right hlt.le
  simp only [be32Enc_toNat, List.cons_lt_cons_iff]
  obtain h24 | h24 := (hle (2 ^ 24)).lt_or_eq
  · exact .inl (by omega)
  obtain h16 | h16 := (hle (2 ^ 16)).lt_or_eq
  · exact .inr ⟨by omega, .inl (by omega)⟩
  obtain h8 | h8 := (hle (2 ^ 8)).lt_or_eq
  · exact .inr ⟨by omega, .inr ⟨by omega, .inl (by omega)⟩⟩
  · exact .inr ⟨by omega, .inr ⟨by omega, .inr ⟨by omega, .inl (by omega)⟩⟩⟩

/-- Settles O16: each general clause is a rule of the codec, and each example is computed. -/
theorem lengthFieldCodec : Obligations.LengthFieldCodec :=
  ⟨fun n _ => be32Enc_toNat n, rfl, rfl, rfl, fun a b c d => ⟨be32Dec_four a b c d, be32Dec_four_le a b c d⟩,
    rfl, rfl, rfl, rfl⟩

end Sys2Proof.Machine
end

section
/-! The accesses of the accumulator (40_byte_utilities R63 to R65) and the laws of the utilities (R67). -/

namespace Sys2Proof.Machine

/-- `APPEND` never disturbs the head (R67 (c)). -/
theorem accTake_accAppend_fst (d : DecoderState) (chunk : Bytes) {n : Nat} (h : n ≤ d.pending.length) :
    ((d.accAppend chunk).accTake n).1 = (d.accTake n).1 := by
  simp only [accTake_eq, accAppend_pending]
  exact List.take_append_of_le_length h

/-- The frames of two `TAKE`s are the two halves of the frame of one (R67 (d)). -/
theorem accTake_append_accTake (d : DecoderState) (n m : Nat) :
    (d.accTake n).1 ++ ((d.accTake n).2.accTake m).1 = (d.accTake (n + m)).1 := by
  simp only [accTake_eq]
  exact List.take_add.symm

/-- Two `TAKE`s leave what one `TAKE` of the sum leaves. -/
theorem accTake_accTake_snd (d : DecoderState) (n m : Nat) :
    ((d.accTake n).2.accTake m).2 = (d.accTake (n + m)).2 := by
  simp only [accTake_eq, List.drop_drop]

theorem accTake_fst_length (d : DecoderState) {n : Nat} (h : n ≤ d.pending.length) : (d.accTake n).1.length = n := by
  rw [accTake_eq]
  exact List.length_take_of_le h

/-- `TAKE` splits the buffer and loses no byte. -/
theorem accTake_fst_append_pending (d : DecoderState) (n : Nat) :
    (d.accTake n).1 ++ (d.accTake n).2.pending = d.pending := by
  rw [accTake_eq]
  exact List.take_append_drop n d.pending

/-- The two halves of a concatenation are its slices (R67 (b)). -/
theorem slices_of_append (a b : Bytes) :
    slice (a ++ b) 0 a.length = a ∧ slice (a ++ b) a.length (a ++ b).length = b := by
  rw [slice_zero, slice_to_end]
  exact ⟨List.take_left, List.drop_left⟩

/-- Settles O18: the indices are those of a concatenation, and `TAKE` is `take` and `drop`. -/
theorem accumulatorAccesses : Obligations.AccumulatorAccesses := by
  intro d chunk n
  refine ⟨rfl, ?appendNothing, ?oldIndices, ?newIndices, ?take, ?takeAll, ?takeNothing, rfl⟩
  case appendNothing => simp [DecoderState.accAppend]
  case oldIndices =>
    intro i hi
    exact List.getElem?_append_left hi
  case newIndices =>
    intro i
    rw [accAppend_pending, List.getElem?_append_right (Nat.le_add_right _ i), Nat.add_sub_cancel_left]
  case take =>
    intro hn
    exact ⟨accTake_fst_length d hn, accTake_fst_append_pending d n, by rw [accTake_eq]⟩
  case takeAll => simp [accTake_eq]
  case takeNothing => simp [accTake_eq]

/-- Settles O17: the rules of the codec, of concatenation and of the accumulator, one for each law. -/
theorem byteUtilityLaws : Obligations.ByteUtilityLaws :=
  ⟨fun _ hn => be32Dec_be32Enc hn, fun _ hb => be32Enc_be32Dec hb, fun _ _ hlt hm => be32Enc_toNat_lt hlt hm,
    fun _ _ hn hm h => be32Enc_injective hn hm h,
    fun a b => ⟨List.length_append, slices_of_append a b⟩,
    fun d chunk _ hn => accTake_accAppend_fst d chunk hn,
    fun d n m _ => ⟨accTake_append_accTake d n m, accTake_accTake_snd d n m⟩⟩

end Sys2Proof.Machine
end

section
/-! The reply step of ENC (42_frame_encoder R78 to R83) as a step of the machine, and what `ASSEMBLE` answers (R79). -/

namespace Sys2Proof.Machine

theorem adapterAnswer_encrypt (p : Params) {r : CipherRequest} (h : r.op = .encrypt) :
    adapterAnswer p r = p.encrypt r.data r.key r.nonce r.aad r.T := by
  simp only [adapterAnswer, h]

/-- A reply to the outstanding request of ENC in `CIPHER` is the reply step, on the value of `aead.encrypt`, with the
request gone. -/
theorem stepUnder_enc_reply {p : Params} {s : State} {rest : List Move} {k : Nat} {r : CipherRequest}
    {reply : Option Bytes} (hmove : s.schedule = .reply .enc k :: rest) (hcipher : s.enc.state = .cipher)
    (hrequest : s.encPort.request = some (k, r)) (hop : r.op = .encrypt)
    (hanswer : p.encrypt r.data r.key r.nonce r.aad r.T = reply) :
    stepUnder p s = .next (encReply p reply (clearRequest .enc { s with schedule := rest })) := by
  rw [stepUnder, stepWith_cons _ _ _ _ _ hmove]
  simp only [moveWith, replyMove, port_enc, hrequest, if_true, takeReply, hcipher, adapterAnswer_encrypt p hop, hanswer]

/-- The reply step when `ASSEMBLE` raises its `FramingError`. -/
theorem encReply_unframed (p : Params) {ctTag : Bytes} {s : State} (h : assemble s.enc ctTag = none) :
    encReply p (some ctTag) s = raiseFatal .enc .framing s := by
  simp only [encReply, h]

/-- Rotation whether or not the nonce is pinned: it writes the nonce and counts the draws, nothing else. -/
theorem rotate_eq (p : Params) (s : State) :
    rotate p s = { s with
      enc := { s.enc with currentNonce := if s.enc.EXT then s.enc.currentNonce else drawnBytes p s.enc.N s }
      draws := if s.enc.EXT then s.draws else s.draws + 1 } := by
  cases hext : s.enc.EXT with
  | true => exact rotate_pinned p hext
  | false => exact rotate_drawn p (by simp [hext])

/-- A command that fits, given in `READY`, leaves its request on the cipher port (42_frame_encoder R80). -/
theorem runWith_encEncode_fits (p : Params) {chunk : Bytes} {s : State} (hready : s.enc.state = .ready)
    (hfits : s.enc.LP = true → s.enc.frameLength chunk ≤ lmax) :
    ∃ t k, runWith p (.encEncode chunk) s = .next t ∧ t.encPort.request = some (k, s.enc.request chunk) := by
  refine ⟨_, _, congrArg Host.Outcome.next ((encEncode_ready hready).trans (encIssue_fits ?_)), rfl⟩
  rintro ⟨hlp, hlong⟩
  exact absurd (hfits hlp) (Nat.not_le.2 hlong)

theorem assemble_unprefixed {e : EncoderState} (ctTag : Bytes) (h : e.LP = false) :
    assemble e ctTag = some (e.body ctTag) := by
  simp [assemble, h]

theorem assemble_prefixed {e : EncoderState} {ctTag : Bytes} (hlp : e.LP = true)
    (hfits : 4 + (e.body ctTag).length ≤ lmax) :
    assemble e ctTag = some (be32Enc (4 + (e.body ctTag).length) ++ e.body ctTag) := by
  simp [assemble, hlp, Nat.not_lt.2 hfits]

/-- `ASSEMBLE` raises its `FramingError` in prefixed mode alone, of a frame longer than the length field can say. -/
theorem assemble_eq_none_iff (e : EncoderState) (ctTag : Bytes) :
    assemble e ctTag = none ↔ e.LP = true ∧ lmax < 4 + (e.body ctTag).length := by
  cases hlp : e.LP <;> simp [assemble, hlp]

/-- Settles O21: the reply step emits the frame and finishes with `OK` around the rotation. -/
theorem encodeReplyEmitsThenRotates : Obligations.EncodeReplyEmitsThenRotates := by
  intro p s rest k r ctTag F hmove hcipher hrequest hop hanswer hframe
  rw [stepUnder_enc_reply hmove hcipher hrequest hop hanswer, encReply_framed p (F := F), rotate_eq]
  · simp only [encFinish, respond_enc_unit, emit_enc_unit, List.append_assoc]
    rfl
  · exact hframe

/-- Settles O22: the reply step finishes at once, and the request of the next `ENCODE` is made of the record it leaves. -/
theorem cipherErrorKeepsTheNonce : Obligations.CipherErrorKeepsTheNonce := by
  intro p s rest k r hmove hcipher hrequest hop hanswer
  refine ⟨_, stepUnder_enc_reply hmove hcipher hrequest hop hanswer, rfl, ?_⟩
  intro chunk hfits
  obtain ⟨t', k', hrun, hissued⟩ :=
    runWith_encEncode_fits (s := encFinish .eCipher (clearRequest .enc { s with schedule := rest })) p rfl hfits
  exact ⟨t', k', _, hrun, hissued, rfl, rfl⟩

/-- Settles O23: the three answers of `ASSEMBLE`, and the reply step that raises its error. -/
theorem oversizeFramesAreNeverEmitted : Obligations.OversizeFramesAreNeverEmitted := by
  constructor
  · intro e ctTag
    exact ⟨assemble_eq_none_iff e ctTag, assemble_prefixed, assemble_unprefixed ctTag⟩
  · intro p s rest k r ctTag hmove hcipher hrequest hop hanswer hframe
    rw [stepUnder_enc_reply hmove hcipher hrequest hop hanswer, encReply_unframed p, raiseFatal_enc]
    · rfl
    · exact hframe

end Sys2Proof.Machine
end

section
/-! The boundary detector in both modes (43_frame_decoder R88, R89). -/

namespace Sys2Proof.Machine

theorem detect_prefixed {d : DecoderState} (h : d.LP = true) :
    detect d =
      if d.pending.length < 4 then .wait
      else if be32Dec (slice d.pending 0 4) < d.lmin then .malformed
      else if d.pending.length < be32Dec (slice d.pending 0 4) then .wait
      else .frame (be32Dec (slice d.pending 0 4)) := if_pos h

theorem detect_unprefixed {d : DecoderState} (h : d.LP = false) :
    detect d =
      if d.pending.length = 0 then .wait
      else if d.pending.length < d.W + d.TB + d.A then .malformed
      else .frame d.pending.length := if_neg (by simp [h])

/-- The answers of R88: each test is made when the tests before it have failed. -/
theorem detect_prefixed_iff {d : DecoderState} {L : Nat} (h : d.LP = true) (hL : be32Dec (slice d.pending 0 4) = L) :
    (detect d = .wait ↔ d.pending.length < 4 ∨ d.lmin ≤ L ∧ d.pending.length < L) ∧
    (detect d = .malformed ↔ 4 ≤ d.pending.length ∧ L < d.lmin) ∧
    ∀ n, detect d = .frame n ↔ n = L ∧ 4 ≤ d.pending.length ∧ d.lmin ≤ L ∧ L ≤ d.pending.length := by
  rw [detect_prefixed h, hL]
  split_ifs with hheader hleast havailable
  · simp [hheader]
  · simp [hleast, Nat.not_lt.1 hheader]
  · simp [havailable, Nat.not_lt.1 hleast]
  · simp [Nat.not_lt.1 hheader, Nat.not_lt.1 hleast, Nat.not_lt.1 havailable, eq_comm]

/-- The answers of R89: without a length field the buffer is the frame. -/
theorem detect_unprefixed_iff {d : DecoderState} (h : d.LP = false) :
    (detect d = .wait ↔ d.pending = []) ∧
    (detect d = .malformed ↔ d.pending ≠ [] ∧ d.pending.length < d.W + d.TB + d.A) ∧
    ∀ n, detect d = .frame n ↔ n = d.pending.length ∧ d.pending ≠ [] ∧ d.W + d.TB + d.A ≤ d.pending.length := by
  rw [detect_unprefixed h]
  split_ifs with hempty hleast
  · simp [List.length_eq_zero_iff.1 hempty]
  · simp [mt List.length_eq_zero_iff.2 hempty, hleast]
  · simp [mt List.length_eq_zero_iff.2 hempty, Nat.not_lt.1 hleast, eq_comm]

/-- Settles O25: the answers of the detector in each mode. -/
theorem boundaryDetector : Obligations.BoundaryDetector := fun _ =>
  ⟨fun h => detect_prefixed_iff h rfl, detect_unprefixed_iff⟩

end Sys2Proof.Machine
end

section
/-! The parts of a detected frame (43_frame_decoder R91). -/

namespace Sys2Proof.Machine

/-- The slice from `i` continues the first `i` bytes. -/
theorem take_append_slice (b : Bytes) {i j : Nat} (h : i ≤ j) : b.take i ++ slice b i j = b.take j := by
  have := List.take_append_drop i (b.take j)
  rwa [List.take_take, Nat.min_eq_left h] at this

theorem parse_ctTag (d : DecoderState) (F : Bytes) :
    (parse d F).ctTag = slice F (d.H + d.W) (F.length - d.A) := rfl

theorem parse_aad (d : DecoderState) (F : Bytes) : (parse d F).aad = F.drop (F.length - d.A) :=
  slice_to_end F _

theorem parse_nonce_pinned {d : DecoderState} (F : Bytes) (h : d.EXT = true) : (parse d F).nonce = d.extNonce :=
  if_pos h

theorem parse_nonce_onWire {d : DecoderState} (F : Bytes) (h : d.EXT = false) :
    (parse d F).nonce = slice F d.H (d.H + d.N) :=
  if_neg (by simp [h])

/-- A legal pair puts the nonce on the wire exactly when it is not pinned. -/
theorem nif_eq_not_ext {d : DecoderState} (h : legalNoncePair .dec d.NIF d.EXT = true) : d.NIF = !d.EXT :=
  Bool.eq_not.2 (by simpa [legalNoncePair] using h)

/-- The bytes between the header and the ciphertext are the nonce, if it is not pinned. -/
theorem slice_wireNonce {d : DecoderState} (F : Bytes) (h : legalNoncePair .dec d.NIF d.EXT = true) :
    slice F d.H (d.H + d.W) = if d.EXT then [] else (parse d F).nonce := by
  cases hext : d.EXT with
  | true => simp [DecoderState.W, nif_eq_not_ext h, hext, slice]
  | false => simp [DecoderState.W, nif_eq_not_ext h, hext, parse_nonce_onWire F hext]

/-- Header, nonce on the wire, ciphertext with tag and additional data lie end to end. -/
theorem parse_covers {d : DecoderState} {F : Bytes} (hpair : legalNoncePair .dec d.NIF d.EXT = true)
    (hlong : d.H + d.W + d.A ≤ F.length) :
    F.take d.H ++ (if d.EXT then [] else (parse d F).nonce) ++ (parse d F).ctTag ++ (parse d F).aad = F :=
  calc F.take d.H ++ (if d.EXT then [] else (parse d F).nonce) ++ (parse d F).ctTag ++ (parse d F).aad
    _ = F.take (d.H + d.W) ++ (parse d F).ctTag ++ (parse d F).aad := by
      rw [← slice_wireNonce F hpair, take_append_slice F (Nat.le_add_right _ _)]
    _ = F.take (F.length - d.A) ++ (parse d F).aad := by
      rw [parse_ctTag, take_append_slice F (Nat.le_sub_of_add_le hlong)]
    _ = F := by rw [parse_aad, List.take_append_drop]

theorem parse_nonce_length {d : DecoderState} {F : Bytes} (hpair : legalNoncePair .dec d.NIF d.EXT = true)
    (hpinned : d.EXT = true → d.extNonce.length = d.N) (hlong : d.H + d.W ≤ F.length) :
    (parse d F).nonce.length = d.N := by
  cases hext : d.EXT with
  | true => rw [parse_nonce_pinned F hext, hpinned hext]
  | false =>
    have hW : d.W = d.N := by simp [DecoderState.W, nif_eq_not_ext hpair, hext]
    rw [parse_nonce_onWire F hext, slice_length F _ _ (hW ▸ hlong), Nat.add_sub_cancel_left]

theorem parse_aad_length {d : DecoderState} {F : Bytes} (h : d.A ≤ F.length) : (parse d F).aad.length = d.A := by
  rw [parse_aad, List.length_drop, Nat.sub_sub_self h]

theorem parse_ctTag_length (d : DecoderState) (F : Bytes) :
    (parse d F).ctTag.length = F.length - d.H - d.W - d.A := by
  rw [parse_ctTag, slice_length F _ _ (Nat.sub_le _ _)]
  omega

/-- The ciphertext of a frame of at least the smallest length holds the tag. -/
theorem tag_le_parse_ctTag_length {d : DecoderState} {F : Bytes} (hlong : d.H + d.W + d.TB + d.A ≤ F.length) :
    d.TB ≤ (parse d F).ctTag.length := by
  rw [parse_ctTag_length]
  omega

/-- Settles O30: a detected frame is long enough for all its parts, so the offsets of `PARSE` are in order. -/
theorem parsedPartsCoverTheFrame : Obligations.ParsedPartsCoverTheFrame := by
  intro d n hconf hframe F f H W
  obtain ⟨-, -, -, -, hpair, hpinned, -⟩ := hconf
  obtain ⟨havailable, hlong, -⟩ := detect_frame hframe
  have hF : F.length = n := List.length_take_of_le havailable
  have hct : f.ctTag.length = n - H - W - d.A := hF ▸ parse_ctTag_length d F
  rw [← hF] at hlong
  exact ⟨hF, hF ▸ hlong, (parse_covers hpair (by omega)).symm, parse_nonce_pinned F, parse_nonce_onWire F,
    parse_nonce_length hpair hpinned (by omega), parse_aad_length (by omega), hct, tag_le_parse_ctTag_length hlong⟩

end Sys2Proof.Machine
end

section
/-! The reply step of DEC (43_frame_decoder R93) as a step of the machine. -/

namespace Sys2Proof.Machine

theorem adapterAnswer_decrypt (p : Params) {r : CipherRequest} (h : r.op = .decrypt) :
    adapterAnswer p r = p.decrypt r.data r.key r.nonce r.aad r.T := by
  simp only [adapterAnswer, h]

/-- A reply to the outstanding request of DEC in `CIPHER` is the reply step, on the value of `aead.decrypt`, with the
request gone. -/
theorem stepUnder_dec_reply {p : Params} {s : State} {rest : List Move} {k : Nat} {r : CipherRequest}
    {reply : Option Bytes} (hmove : s.schedule = .reply .dec k :: rest) (hcipher : s.dec.state = .cipher)
    (hrequest : s.decPort.request = some (k, r)) (hop : r.op = .decrypt)
    (hanswer : p.decrypt r.data r.key r.nonce r.aad r.T = reply) :
    stepUnder p s = .next (decReply reply (clearRequest .dec { s with schedule := rest })) := by
  rw [stepUnder, stepWith_cons _ _ _ _ _ hmove]
  simp only [moveWith, replyMove, port_dec, hrequest, if_true, takeReply, hcipher, adapterAnswer_decrypt p hop, hanswer]

/-- The reply step on success (43_frame_decoder R93), whole. -/
theorem decReply_ok {plaintext aad : Bytes} {s : State} (h : s.dec.inflight = .decReq aad) :
    decReply (some plaintext) s =
      { s with
        dec := { s.dec with inflight := .none, state := .scan }
        decPort := { s.decPort with sent := s.decPort.sent ++ [.chunk (plaintext ++ aad)] } } := by
  simp only [decReply, h, DecInflight.aad, emit_dec_unit]

/-- Settles O31: the reply step on success, after the request is cleared. -/
theorem decodeReplyEmitsPlaintextAndAad : Obligations.DecodeReplyEmitsPlaintextAndAad := by
  intro p s rest k r aad plaintext hmove hcipher hlatch hrequest hop hanswer
  rw [stepUnder_dec_reply hmove hcipher hrequest hop hanswer]
  exact congrArg Host.Outcome.next (decReply_ok hlatch)

end Sys2Proof.Machine
end

section
/-! The checks of `CONFIG` and the first that fails (44_config R100, R101). -/

namespace Sys2Proof.Machine

/-- In a list of checks with ascending numbers the first failed check is the one with no failed check below it. -/
theorem find_failed_eq_some_iff {checks : List (Nat × Bool)} (hascending : checks.Pairwise (·.1 < ·.1)) (i : Nat) :
    (checks.find? fun check => !check.2).map Prod.fst = some i ↔
      (i, false) ∈ checks ∧ ∀ check ∈ checks, check.1 < i → check.2 = true := by
  induction checks with
  | nil => simp
  | cons check checks ih =>
    obtain ⟨hleast, htail⟩ := List.pairwise_cons.1 hascending
    obtain ⟨n, passed⟩ := check
    cases passed with
    | true => simpa using ih htail
    | false =>
      simp only [List.find?_cons, Bool.not_false, Option.map_some, Option.some.injEq, List.mem_cons, Prod.mk.injEq,
        and_true, forall_eq_or_imp, Bool.false_eq_true, imp_false, Nat.not_lt]
      constructor
      · rintro rfl
        exact ⟨.inl rfl, le_rfl, fun check hmem hlt => absurd hlt (hleast check hmem).asymm⟩
      · rintro ⟨rfl | hmem, hle, -⟩
        · rfl
        · exact absurd (hleast _ hmem) (Nat.not_lt.2 hle)

/-- The checks are numbered 1 to 8, each number once. -/
theorem configChecks_numbers (u : UnitId) (key : Key) (payload : Bytes) :
    (configChecks u key payload).map Prod.fst = List.range' 1 8 := rfl

theorem exists_mem_configChecks_iff (u : UnitId) (key : Key) (payload : Bytes) (i : Nat) :
    (∃ passed, (i, passed) ∈ configChecks u key payload) ↔ 1 ≤ i ∧ i ≤ 8 := by
  have hmem : i ∈ (configChecks u key payload).map Prod.fst ↔ 1 ≤ i ∧ i < 1 + 8 := by
    rw [configChecks_numbers, List.mem_range'_1]
  rw [List.mem_map] at hmem
  simpa [Nat.lt_succ_iff] using hmem

theorem configChecks_ascending (u : UnitId) (key : Key) (payload : Bytes) :
    (configChecks u key payload).Pairwise (·.1 < ·.1) := by
  rw [← List.pairwise_map (f := Prod.fst), configChecks_numbers]
  exact List.pairwise_lt_range'

theorem firstFailure_eq_none_iff (u : UnitId) (key : Key) (payload : Bytes) :
    firstFailure u key payload = none ↔ ∀ check ∈ configChecks u key payload, check.2 = true := by
  simp [firstFailure, List.find?_eq_none]

theorem firstFailure_eq_some_iff (u : UnitId) (key : Key) (payload : Bytes) (i : Nat) :
    firstFailure u key payload = some i ↔
      (i, false) ∈ configChecks u key payload ∧
        ∀ check ∈ configChecks u key payload, check.1 < i → check.2 = true :=
  find_failed_eq_some_iff (configChecks_ascending u key payload) i

/-- Any conditions that the checks decide, and that ask nothing under other numbers, describe the first failure. -/
theorem firstFailure_iff_of_decides {u : UnitId} {key : Key} {payload : Bytes} {holds : Nat → Prop}
    (hdecides : ∀ check ∈ configChecks u key payload, check.2 = true ↔ holds check.1)
    (hothers : ∀ i, ¬(1 ≤ i ∧ i ≤ 8) → holds i) :
    (firstFailure u key payload = none ↔ ∀ i, holds i) ∧
    ∀ i, firstFailure u key payload = some i ↔ 1 ≤ i ∧ i ≤ 8 ∧ ¬holds i ∧ ∀ j, j < i → holds j := by
  have hpassed (q : Nat → Prop) :
      (∀ check ∈ configChecks u key payload, q check.1 → check.2 = true) ↔ ∀ i, q i → holds i := by
    constructor
    · intro h i hq
      by_cases hi : 1 ≤ i ∧ i ≤ 8
      · obtain ⟨passed, hmem⟩ := (exists_mem_configChecks_iff u key payload i).2 hi
        exact (hdecides _ hmem).1 (h _ hmem hq)
      · exact hothers i hi
    · intro h check hmem hq
      exact (hdecides check hmem).2 (h _ hq)
  have hfailed (i : Nat) : (i, false) ∈ configChecks u key payload ↔ (1 ≤ i ∧ i ≤ 8) ∧ ¬holds i := by
    rw [← exists_mem_configChecks_iff u key payload i]
    constructor
    · intro hmem
      exact ⟨⟨false, hmem⟩, fun h => Bool.false_ne_true ((hdecides _ hmem).2 h)⟩
    · rintro ⟨⟨passed, hmem⟩, hnot⟩
      cases passed with
      | false => exact hmem
      | true => exact absurd ((hdecides _ hmem).1 rfl) hnot
  constructor
  · rw [firstFailure_eq_none_iff]
    simpa using hpassed fun _ => True
  · intro i
    rw [firstFailure_eq_some_iff, hfailed, hpassed (· < i), and_assoc, and_assoc]

/-- The table of legal pairs (44_config R101, check 5): only ENC may both pin the nonce and send it. -/
theorem legalNoncePair_iff (u : UnitId) (NIF EXT : Bool) :
    legalNoncePair u NIF EXT = true ↔
      (NIF = true ∧ EXT = false) ∨ (NIF = false ∧ EXT = true) ∨ (u = .enc ∧ NIF = true ∧ EXT = true) := by
  cases u <;> revert NIF EXT <;> decide

theorem not_or_decide_iff (b : Bool) (q : Prop) [Decidable q] : (!b || decide q) = true ↔ (b = true → q) := by
  cases b <;> simp

/-- Settles O38: each check decides its condition of the table. (`configChecks` is the model's list of them.) -/
theorem configChecksInOrder : Obligations.ConfigChecks := by
  intro u key payload c W E holds
  refine firstFailure_iff_of_decides ?decides ?others
  case decides =>
    simp only [configChecks, List.forall_mem_cons]
    refine ⟨?length, ?reserved, ?key, ?tag, legalNoncePair_iff u _ _, decide_eq_true_iff, ?frame, ?record, by simp⟩
    case length => simp [holds]
    case reserved => simp [holds]
    case key => simp [holds]
    case tag => simp [holds, c]
    case frame => exact not_or_decide_iff _ _
    case record => cases u <;> simp [holds, c, E, ConfigRecord.length, ConfigRecord.E]
  case others =>
    intro i hi
    simp only [holds]
    split
    case h_9 => trivial
    all_goals exact absurd (by decide) hi

end Sys2Proof.Machine
end

section
/-! A unit in a stable phase takes the command that waits first; an unknown code is rejected (44_config R107, R108). -/

namespace Sys2Proof.Machine

theorem stable_enc_iff (s : State) : s.stable .enc ↔ s.enc.state ≠ .cipher := by
  cases hphase : s.enc.state <;> simp [State.stable, State.busy, EncPhase.busy, hphase]

theorem stable_dec_iff (s : State) : s.stable .dec ↔ s.dec.state ≠ .scan ∧ s.dec.state ≠ .cipher := by
  cases hphase : s.dec.state <;> simp [State.stable, State.busy, DecPhase.busy, hphase]

theorem unitMove_stable (p : Params) (run : Instr → State → Host.Outcome State Fault Refusal) {u : UnitId} {s : State}
    (h : s.stable u) : unitMove p run u s = acceptCommand p run u s := by
  cases u with
  | enc =>
    cases hphase : s.enc.state with
    | cipher => exact absurd hphase ((stable_enc_iff s).1 h)
    | off | ready | halted => simp only [unitMove, hphase]
  | dec =>
    cases hphase : s.dec.state with
    | scan => exact absurd hphase ((stable_dec_iff s).1 h).1
    | cipher => exact absurd hphase ((stable_dec_iff s).1 h).2
    | off | ready | halted | ended => simp only [unitMove, hphase]

/-- A transaction that is no command of the unit leaves the port and is rejected. -/
theorem acceptCommand_unknown (p : Params) (run : Instr → State → Host.Outcome State Fault Refusal) {u : UnitId}
    {s : State} {c : Command} {waiting : List Command} {e : DecodeError} (hc : (s.port u).commands = c :: waiting)
    (hd : decode u c = .error e) :
    acceptCommand p run u s = .next (reject u (s.setPort u { s.port u with commands := waiting })) := by
  simp only [acceptCommand, hc, hd]

/-- The step of a unit in a stable phase that has the next move. -/
theorem step_unit_stable {s : State} {u : UnitId} {rest : List Move} (hmove : s.schedule = .unit u :: rest)
    (hstable : s.stable u) :
    step s = acceptCommand Config.params exec u { s with schedule := rest } := by
  rw [step, stepWith_cons _ _ _ _ _ hmove]
  exact unitMove_stable _ _ (by cases u <;> exact hstable)

/-- Settles O48: in a stable phase the unit takes the command, and a code outside its row does not decode. -/
theorem unknownCodesAreRejected : Obligations.UnknownCodesAreRejected := by
  constructor
  · intro s rest c waiting hmove hstable hc h1 h2 h5
    rw [step_unit_stable hmove ((stable_enc_iff s).2 hstable)]
    exact acceptCommand_unknown _ _ hc (decode_enc_unknown h1 h2 h5)
  · intro s rest c waiting hmove hscan hcipher hc h1 h3 h4 h5
    rw [step_unit_stable hmove ((stable_dec_iff s).2 ⟨hscan, hcipher⟩)]
    exact acceptCommand_unknown _ _ hc (decode_dec_unknown h1 h3 h4 h5)

end Sys2Proof.Machine
end

section
/-! The entry of a fatal error (60_exceptions R115): of all a step can do, only the fatal effects lead into `HALTED`. -/

namespace Sys2Proof.Machine

/-- An effect that halts ENC is a size refusal, of the command or of the adapter's answer. -/
theorem EncEffect_halting {p : Params} {s t : State} {rest : List Move} (h : EncEffect p s rest t)
    (hbefore : s.enc.state ≠ .halted) (hafter : t.enc.state = .halted) :
    t.enc.inflight = .none ∧ t.enc.fault = .framing ∧
    t.encPort.sent = s.encPort.sent ++ [.response .eFraming] ∧
    t.enc.configuration = s.enc.configuration ∧ t.enc.currentNonce = s.enc.currentNonce := by
  cases h with
  | oversize | tooLong => exact ⟨rfl, rfl, rfl, rfl, rfl⟩
  | idle | offered | read | answered => exact absurd hafter hbefore
  | reset | cipherFailed | framed | issued | configured | configFailed | closed => cases hafter

/-- An effect that halts DEC raises the fatal error its phase allows (44_config R111). -/
theorem DecEffect_halting {p : Params} {s t : State} {rest : List Move} (h : DecEffect p s rest t)
    (hbefore : s.dec.state ≠ .halted) (hafter : t.dec.state = .halted) :
    t.dec.inflight = .none ∧
    (t.dec.fault, s.dec.state) ∈
      [(FaultCode.auth, DecPhase.cipher), (.framing, .scan), (.trunc, .ready), (.overflow, .ready)] ∧
    t.decPort.sent = s.decPort.sent ++ [.response t.dec.fault.response] ∧
    t.dec.configuration = s.dec.configuration ∧ t.dec.pending = s.dec.pending := by
  cases h with
  | authFailed _ _ _ hphase | malformed _ hphase | truncated _ _ _ _ hphase | overflowed _ _ _ _ hphase =>
    exact ⟨rfl, by simp [hphase], rfl, rfl, rfl⟩
  | idle | offered | read | answered => exact absurd hafter hbefore
  | reset | opened | appended | rested | extracted | ended | configured | configFailed | closed => cases hafter

/-- Settles O51: a step is an effect about one unit; the other unit's phase stands, so it is not the one that halts. -/
theorem fatalErrorEntry : Obligations.FatalErrorEntry := by
  constructor
  · intro s t hstep hbefore hafter
    obtain henc | hdec := stepUnder_effect (step_eq_stepUnder s ▸ hstep)
    · exact EncEffect_halting henc hbefore hafter
    · exact absurd ((DecEffect_enc hdec).1 ▸ hafter) hbefore
  · intro s t hstep hbefore hafter
    obtain henc | hdec := stepUnder_effect (step_eq_stepUnder s ▸ hstep)
    · exact absurd ((EncEffect_dec henc).1 ▸ hafter) hbefore
    · exact DecEffect_halting hdec hbefore hafter

end Sys2Proof.Machine
end

section
/-! The reset state after power-on, `RST`, `CLOSE` and a failed `CONFIG` (70_reset R125, R126; 44_config R100, R105, R106). -/

namespace Sys2Proof.Machine

/-- `STATUS` in the reset state of either unit: phase code, fault and busy are all 0 (70_reset R126). -/
theorem statusWord_reset : statusWord 0#4 .none false = 0 := by decide

/-- `CFG_FLAGS` in the reset state of either unit (70_reset R126). -/
theorem cfgFlagsWord_reset : cfgFlagsWord true true false = 3 := by decide

/-- The registers of ENC in the reset state (70_reset R126); none shows the nonce. -/
theorem encRead_resetWith (nonce : Bytes) :
    (List.range 6).map (encRead (.resetWith nonce)) = [0, 3, 12, 128, 0, 0] := by
  simp [List.range_succ, encRead, EncoderState.resetWith, EncoderState.A, EncPhase.code, EncPhase.busy,
    statusWord_reset, cfgFlagsWord_reset]

/-- The registers of DEC in the reset state (70_reset R126); none shows the nonce. -/
theorem decRead_resetWith (nonce : Bytes) :
    (List.range 6).map (decRead (.resetWith nonce)) = [0, 3, 12, 128, 0, 0] := by
  simp [List.range_succ, decRead, DecoderState.resetWith, DecPhase.code, DecPhase.busy, statusWord_reset,
    cfgFlagsWord_reset]

theorem step_rst {s : State} {u : UnitId} {rest : List Move} (hmove : s.schedule = .rst u :: rest) :
    step s = .next (assertReset Config.params u { s with schedule := rest }) :=
  stepWith_cons _ _ _ _ _ hmove

theorem encClose_stable (p : Params) {s : State} (h : s.stable .enc) :
    encClose p s = respond .enc .ok (resetUnit p .enc s) := by
  cases hphase : s.enc.state with
  | cipher => exact absurd hphase ((stable_enc_iff s).1 h)
  | off | ready | halted => simp only [encClose, hphase]

theorem decClose_stable (p : Params) {s : State} (h : s.stable .dec) :
    decClose p s = respond .dec .ok (resetUnit p .dec s) := by
  cases hphase : s.dec.state with
  | scan => exact absurd hphase ((stable_dec_iff s).1 h).1
  | cipher => exact absurd hphase ((stable_dec_iff s).1 h).2
  | off | ready | halted | ended => simp only [decClose, hphase]

theorem encConfig_failed (p : Params) {key : Key} {payload : Bytes} {s : State} (hoff : s.enc.state = .off)
    (hfails : firstFailure .enc key payload ≠ none) :
    encConfig p key payload s = configFailed p .enc s := by
  obtain ⟨i, hi⟩ := Option.ne_none_iff_exists'.1 hfails
  simp only [encConfig, hoff, encConfigRun, hi]

theorem decConfig_failed (p : Params) {key : Key} {payload : Bytes} {s : State} (hoff : s.dec.state = .off)
    (hfails : firstFailure .dec key payload ≠ none) :
    decConfig p key payload s = configFailed p .dec s := by
  obtain ⟨i, hi⟩ := Option.ne_none_iff_exists'.1 hfails
  simp only [decConfig, hoff, decConfigRun, hi]

/-- A failed `ENC.CONFIG` (44_config R100 step 2), whole. -/
theorem configFailed_enc (p : Params) (s : State) :
    configFailed p .enc s = { s with
      enc := { EncoderState.resetWith (unspecifiedBytes p .enc 12 s) with fault := .config }
      encPort := { s.encPort with
        sent := s.encPort.sent ++ [.response .eConfig], freeUses := s.encPort.freeUses + 1 } } := rfl

/-- A failed `DEC.CONFIG` (44_config R100 step 2), whole. -/
theorem configFailed_dec (p : Params) (s : State) :
    configFailed p .dec s = { s with
      dec := { DecoderState.resetWith (unspecifiedBytes p .dec 12 s) with fault := .config }
      decPort := { s.decPort with
        sent := s.decPort.sent ++ [.response .eConfig], freeUses := s.decPort.freeUses + 1 } } := rfl

/-- Settles O41: `RST`, `CLOSE` and a failed `CONFIG` all write `resetWith` around twelve unspecified bytes. -/
theorem resetState : Obligations.ResetState := by
  unfold Obligations.ResetState
  intro encReset decReset
  refine ⟨?encPowerOn, ?decPowerOn, ?encRst, ?decRst, ?encClose, ?decClose, ?encConfig, ?decConfig, ?encRead, ?decRead⟩
  case encPowerOn => exact ⟨_, List.length_replicate, rfl⟩
  case decPowerOn => exact ⟨_, rfl⟩
  case encRst =>
    intro s rest hmove
    exact ⟨_, step_rst hmove, _, unspecifiedBytes_length _ _ _ _, rfl⟩
  case decRst =>
    intro s rest hmove
    exact ⟨_, step_rst hmove, _, rfl⟩
  case encClose =>
    intro s hcipher
    have hclose := encClose_stable Config.params ((stable_enc_iff s).2 hcipher)
    exact ⟨_, congrArg Host.Outcome.next hclose, _, unspecifiedBytes_length _ _ _ _, rfl⟩
  case decClose =>
    intro s hscan hcipher
    have hclose := decClose_stable Config.params ((stable_dec_iff s).2 ⟨hscan, hcipher⟩)
    exact ⟨_, congrArg Host.Outcome.next hclose, _, rfl⟩
  case encConfig =>
    intro s key payload hoff hfails
    have hconfig := (encConfig_failed Config.params hoff hfails).trans (configFailed_enc _ _)
    exact ⟨_, congrArg Host.Outcome.next hconfig, _, unspecifiedBytes_length _ _ _ _, rfl⟩
  case decConfig =>
    intro s key payload hoff hfails
    have hconfig := (decConfig_failed Config.params hoff hfails).trans (configFailed_dec _ _)
    exact ⟨_, congrArg Host.Outcome.next hconfig, _, rfl⟩
  case encRead =>
    rintro s ⟨nonce, -, hreset⟩
    have hregisters : s.rd .enc = encRead (.resetWith nonce) := congrArg encRead hreset
    rw [hregisters, encRead_resetWith]
  case decRead =>
    rintro s ⟨nonce, hreset⟩
    have hregisters : s.rd .dec = decRead (.resetWith nonce) := congrArg decRead hreset
    rw [hregisters, decRead_resetWith]

end Sys2Proof.Machine
end

section
/-! The lengths and bounds of what a configuration record reads as (44_config R100, R101). -/

namespace Sys2Proof.Machine

theorem be32Dec_le_lmax (b : Bytes) : be32Dec b ≤ lmax := by
  unfold be32Dec
  split
  · exact be32Dec_four_le _ _ _ _
  · exact Nat.zero_le _

theorem readRecord_nil (u : UnitId) : readRecord u [] = .defaults := if_pos rfl

/-- The numbers of a record are numbers of four bytes. -/
theorem readRecord_le_lmax (u : UnitId) (payload : Bytes) :
    (readRecord u payload).N ≤ lmax ∧ (readRecord u payload).T ≤ lmax ∧ (readRecord u payload).A ≤ lmax := by
  by_cases hp : payload = []
  · subst hp
    rw [readRecord_nil]
    decide
  · rw [readRecord, if_neg hp]
    exact ⟨be32Dec_le_lmax _, be32Dec_le_lmax _, be32Dec_le_lmax _⟩

/-- A record of the length check 8 asks for holds all of its pinned nonce. -/
theorem readRecord_extNonce_length {u : UnitId} {payload : Bytes}
    (h : payload = [] ∨ payload.length = (readRecord u payload).length u) :
    (readRecord u payload).extNonce.length = (readRecord u payload).E := by
  by_cases hp : payload = []
  · subst hp
    rw [readRecord_nil]
    rfl
  · have hlen := h.resolve_left hp
    have hfits : 13 + (readRecord u payload).E ≤ payload.length := by
      rw [hlen]
      cases u <;> simp only [ConfigRecord.length] <;> omega
    revert hfits
    rw [readRecord, if_neg hp]
    intro hfits
    exact (slice_length _ _ _ hfits).trans (Nat.add_sub_cancel_left _ _)

/-- A record of the length check 8 asks for holds all of its additional data on ENC. -/
theorem readRecord_aad_length {payload : Bytes}
    (h : payload = [] ∨ payload.length = (readRecord .enc payload).length .enc) :
    (readRecord .enc payload).aad.length = (readRecord .enc payload).A := by
  by_cases hp : payload = []
  · subst hp
    rw [readRecord_nil]
    rfl
  · have hlen := h.resolve_left hp
    revert hlen
    rw [readRecord, if_neg hp]
    intro hlen
    exact (slice_length _ _ _ (Nat.le_of_eq hlen.symm)).trans (Nat.add_sub_cancel_left _ _)

/-- What the eight checks establish of an accepted record (44_config R101). -/
theorem accepted_record {u : UnitId} {key : Key} {payload : Bytes} (h : firstFailure u key payload = none) :
    key ≠ .invalid ∧ (readRecord u payload).T % 8 = 0 ∧ 8 ≤ (readRecord u payload).T ∧ 1 ≤ (readRecord u payload).N ∧
    legalNoncePair u (readRecord u payload).NIF (readRecord u payload).EXT = true ∧
    ((readRecord u payload).LP = true →
      4 + (readRecord u payload).W + (readRecord u payload).T / 8 + (readRecord u payload).A ≤ lmax) ∧
    (payload = [] ∨ payload.length = (readRecord u payload).length u) := by
  have hholds := (configChecksInOrder u key payload).1.1 h
  obtain ⟨htag, hleast⟩ := hholds 4
  refine ⟨hholds 3, htag, hleast, hholds 6, (legalNoncePair_iff u _ _).2 (hholds 5), hholds 7, ?_⟩
  cases u <;> exact hholds 8

end Sys2Proof.Machine
end

section
/-! The invariants of 10_state R27: a unit and its port meet them in each phase under that phase's conditions, and every
effect leads to a phase whose conditions it establishes. -/

namespace Sys2Proof.Machine

theorem EncInv.request_none {e : EncoderState} {q : Port} (h : EncInv e q) (hs : e.state ≠ .cipher) :
    q.request = none := by
  simpa [hs] using h.request

theorem EncInv.fault_none {e : EncoderState} {q : Port} (h : EncInv e q) (hoff : e.state ≠ .off)
    (hhalted : e.state ≠ .halted) : e.fault = .none := by
  simpa [hoff, hhalted] using h.fault

/-- The invariants look at the port's request and tickets alone. -/
theorem EncInv.of_port {e : EncoderState} {q q' : Port} (h : EncInv e q) (hr : q'.request = q.request)
    (ht : q'.tickets = q.tickets) : EncInv e q' :=
  { h with request := hr ▸ h.request, carried := hr ▸ h.carried, fresh := hr ▸ ht ▸ h.fresh }

theorem EncInv.of_off {nonce : Bytes} {fault : FaultCode} {q : Port} (hn : nonce.length = 12)
    (hf : fault = .none ∨ fault = .config) (hq : q.request = none) :
    EncInv { EncoderState.resetWith nonce with fault := fault } q where
  configured := fun h => absurd rfl h
  off := fun _ => ⟨rfl, hn⟩
  latch := by simp [EncoderState.resetWith]
  halted := nofun
  fault := by rcases hf with rfl | rfl <;> simp [EncoderState.resetWith]
  request := by simp [hq, EncoderState.resetWith]
  carried := by simp [hq]
  fresh := by simp [hq]

theorem EncInv.of_ready {e : EncoderState} {q : Port} (hs : e.state = .ready) (hc : e.Configured)
    (hf : e.fault = .none) (hl : e.inflight = .none) (hq : q.request = none) : EncInv e q where
  configured := fun _ => hc
  off := by simp [hs]
  latch := by simp [hs, hl]
  halted := by simp [hs]
  fault := by simp [hs, hf]
  request := by simp [hs, hq]
  carried := by simp [hq]
  fresh := by simp [hq]

theorem EncInv.of_cipher {e : EncoderState} {q : Port} {k : Nat} {chunk : Bytes} (hs : e.state = .cipher)
    (hc : e.Configured) (hf : e.fault = .none) (hl : e.inflight = .encReq)
    (hq : q.request = some (k, e.request chunk)) (hk : k < q.tickets) : EncInv e q where
  configured := fun _ => hc
  off := by simp [hs]
  latch := by simp [hs, hl]
  halted := by simp [hs]
  fault := by simp [hs, hf]
  request := by simp [hs, hq]
  carried := by
    rintro t r hr
    cases hq.symm.trans hr
    rfl
  fresh := by
    rintro t r hr
    cases hq.symm.trans hr
    exact hk

theorem EncInv.of_halted {e : EncoderState} {q : Port} (hs : e.state = .halted) (hc : e.Configured)
    (hf : e.fault = .framing) (hl : e.inflight = .none) (hq : q.request = none) : EncInv e q where
  configured := fun _ => hc
  off := by simp [hs]
  latch := by simp [hs, hl]
  halted := fun _ => hf
  fault := by simp [hs, hf]
  request := by simp [hs, hq]
  carried := by simp [hq]
  fresh := by simp [hq]

/-- Every effect about ENC keeps the invariants of ENC. -/
theorem EncEffect_inv {p : Params} {s t : State} {rest : List Move} (h : EncEffect p s rest t)
    (hi : EncInv s.enc s.encPort) : EncInv t.enc t.encPort := by
  have hconf {phase : EncPhase} (hs : s.enc.state = phase) (hne : phase ≠ .off) : s.enc.Configured :=
    hi.configured (hs ▸ hne)
  cases h with
  | idle | offered | read | answered => exact hi.of_port rfl rfl
  | reset nonce hn => exact .of_off hn (.inl rfl) rfl
  | configFailed _ _ nonce hn _ _ hs => exact .of_off hn (.inr rfl) (hi.request_none (by simp [hs]))
  | closed _ _ nonce hn _ _ _ hs => exact .of_off hn (.inl rfl) (hi.request_none hs)
  | cipherFailed _ _ _ hs =>
    exact .of_ready rfl (hconf hs (by decide)) (hi.fault_none (by simp [hs]) (by simp [hs])) rfl rfl
  | framed _ _ _ F nonce _ _ hs _ _ _ hn =>
    obtain ⟨hkey, htag, hleast, hN, hpair, hlen, hrest⟩ := hconf hs (by decide)
    have hnonce : nonce.length = s.enc.N := by
      obtain ⟨-, rfl, -⟩ | ⟨-, rfl, -⟩ := hn
      · exact hlen
      · exact drawnBytes_length _ _ _
    exact .of_ready rfl ⟨hkey, htag, hleast, hN, hpair, hnonce, hrest⟩
      (hi.fault_none (by simp [hs]) (by simp [hs])) rfl rfl
  | configured _ _ key payload nonce _ _ _ hs hf hn =>
    obtain ⟨hkey, htag, hleast, hN, hpair, hframe, hlen⟩ := accepted_record hf
    obtain ⟨hN', hT', hA'⟩ := readRecord_le_lmax .enc payload
    have hnonce : nonce.length = (readRecord .enc payload).N := by
      obtain ⟨hext, rfl, -⟩ | ⟨-, rfl, -⟩ := hn
      · exact (readRecord_extNonce_length hlen).trans (if_pos hext)
      · exact drawnBytes_length _ _ _
    rw [← readRecord_aad_length hlen] at hframe hA'
    exact .of_ready rfl ⟨hkey, htag, hleast, hN, hpair, hnonce, hframe, hN', hT', hA'⟩ rfl rfl
      (hi.request_none (by simp [hs]))
  | oversize _ _ _ _ hs => exact .of_halted rfl (hconf hs (by decide)) rfl rfl rfl
  | tooLong _ _ _ _ hs =>
    exact .of_halted rfl (hconf hs (by decide)) rfl rfl (hi.request_none (by simp [hs]))
  | issued _ _ chunk _ _ hs =>
    exact .of_cipher (chunk := chunk) rfl (hconf hs (by decide)) (hi.fault_none (by simp [hs]) (by simp [hs])) rfl rfl
      (Nat.lt_succ_self _)

theorem DecInv.request_none {cap : Capacity} {d : DecoderState} {q : Port} (h : DecInv cap d q)
    (hs : d.state ≠ .cipher) : q.request = none := by
  simpa [hs] using h.request

theorem DecInv.fault_none {cap : Capacity} {d : DecoderState} {q : Port} (h : DecInv cap d q)
    (hoff : d.state ≠ .off) (hhalted : d.state ≠ .halted) : d.fault = .none := by
  simpa [hoff, hhalted] using h.fault

theorem DecInv.inflight_none {cap : Capacity} {d : DecoderState} {q : Port} (h : DecInv cap d q)
    (hs : d.state ≠ .cipher) : d.inflight = .none := by
  simpa [hs] using h.latch

/-- The invariants look at the port's request and tickets alone. -/
theorem DecInv.of_port {cap : Capacity} {d : DecoderState} {q q' : Port} (h : DecInv cap d q)
    (hr : q'.request = q.request) (ht : q'.tickets = q.tickets) : DecInv cap d q' :=
  { h with request := hr ▸ h.request, carried := hr ▸ h.carried, fresh := hr ▸ ht ▸ h.fresh }

theorem DecInv.of_off {cap : Capacity} {nonce : Bytes} {fault : FaultCode} {q : Port}
    (hf : fault = .none ∨ fault = .config) (hq : q.request = none) :
    DecInv cap { DecoderState.resetWith nonce with fault := fault } q where
  configured := fun h => absurd rfl h
  off := fun _ => rfl
  atRest := nofun
  atRestUnprefixed := nofun
  capacity := rfl
  latch := by simp [DecoderState.resetWith]
  halted := nofun
  fault := by rcases hf with rfl | rfl <;> simp [DecoderState.resetWith]
  ended := nofun
  request := by simp [hq, DecoderState.resetWith]
  carried := by simp [hq]
  fresh := by simp [hq]

theorem DecInv.of_ready {cap : Capacity} {d : DecoderState} {q : Port} (hs : d.state = .ready) (hc : d.Configured)
    (hrest : d.LP = true → d.NoCompleteFrame) (hempty : d.LP = false → d.pending = [])
    (hcap : cap.allows d.pending.length = true) (hf : d.fault = .none) (hl : d.inflight = .none)
    (hq : q.request = none) : DecInv cap d q where
  configured := fun _ => hc
  off := by simp [hs]
  atRest := fun _ => hrest
  atRestUnprefixed := fun _ => hempty
  capacity := hcap
  latch := by simp [hs, hl]
  halted := by simp [hs]
  fault := by simp [hs, hf]
  ended := by simp [hs]
  request := by simp [hs, hq]
  carried := by simp [hq]
  fresh := by simp [hq]

theorem DecInv.of_scan {cap : Capacity} {d : DecoderState} {q : Port} (hs : d.state = .scan) (hc : d.Configured)
    (hcap : cap.allows d.pending.length = true) (hf : d.fault = .none) (hl : d.inflight = .none)
    (hq : q.request = none) : DecInv cap d q where
  configured := fun _ => hc
  off := by simp [hs]
  atRest := by simp [hs]
  atRestUnprefixed := by simp [hs]
  capacity := hcap
  latch := by simp [hs, hl]
  halted := by simp [hs]
  fault := by simp [hs, hf]
  ended := by simp [hs]
  request := by simp [hs, hq]
  carried := by simp [hq]
  fresh := by simp [hq]

theorem DecInv.of_cipher {cap : Capacity} {d : DecoderState} {q : Port} {k : Nat} {r : CipherRequest}
    (hs : d.state = .cipher) (hc : d.Configured) (hcap : cap.allows d.pending.length = true) (hf : d.fault = .none)
    (hq : q.request = some (k, r)) (hk : k < q.tickets)
    (hr : r.op = .decrypt ∧ r.key = d.key ∧ r.T = d.T ∧ d.inflight = .decReq r.aad ∧ d.TB ≤ r.data.length) :
    DecInv cap d q where
  configured := fun _ => hc
  off := by simp [hs]
  atRest := by simp [hs]
  atRestUnprefixed := by simp [hs]
  capacity := hcap
  latch := by simp [hs, hr]
  halted := by simp [hs]
  fault := by simp [hs, hf]
  ended := by simp [hs]
  request := by simp [hs, hq]
  carried := by
    rintro t r' hr'
    cases hq.symm.trans hr'
    exact hr
  fresh := by
    rintro t r' hr'
    cases hq.symm.trans hr'
    exact hk

theorem DecInv.of_halted {cap : Capacity} {d : DecoderState} {q : Port} (hs : d.state = .halted) (hc : d.Configured)
    (hcap : cap.allows d.pending.length = true)
    (hf : d.fault = .auth ∨ d.fault = .framing ∨ d.fault = .trunc ∨ d.fault = .overflow) (hl : d.inflight = .none)
    (hq : q.request = none) : DecInv cap d q where
  configured := fun _ => hc
  off := by simp [hs]
  atRest := by simp [hs]
  atRestUnprefixed := by simp [hs]
  capacity := hcap
  latch := by simp [hs, hl]
  halted := fun _ => hf
  fault := by rcases hf with hf | hf | hf | hf <;> simp [hs, hf]
  ended := by simp [hs]
  request := by simp [hs, hq]
  carried := by simp [hq]
  fresh := by simp [hq]

theorem DecInv.of_ended {cap : Capacity} {d : DecoderState} {q : Port} (hs : d.state = .ended) (hc : d.Configured)
    (hp : d.pending = []) (hf : d.fault = .none) (hl : d.inflight = .none) (hq : q.request = none) :
    DecInv cap d q where
  configured := fun _ => hc
  off := by simp [hs]
  atRest := by simp [hs]
  atRestUnprefixed := by simp [hs]
  capacity := by rw [hp]; rfl
  latch := by simp [hs, hl]
  halted := by simp [hs]
  fault := by simp [hs, hf]
  ended := fun _ => hp
  request := by simp [hs, hq]
  carried := by simp [hq]
  fresh := by simp [hq]

/-- What fits a capacity fits with fewer bytes. -/
theorem allows_of_le {cap : Capacity} {m n : Nat} (hmn : m ≤ n) (h : cap.allows n = true) : cap.allows m = true :=
  (allows_iff cap m).2 fun c hc => hmn.trans ((allows_iff cap n).1 h c hc)

/-- Every effect about DEC keeps the invariants of DEC under the capacity of the parameters. -/
theorem DecEffect_inv {p : Params} {s t : State} {rest : List Move} (h : DecEffect p s rest t)
    (hi : DecInv p.pendingCap s.dec s.decPort) : DecInv p.pendingCap t.dec t.decPort := by
  have hconf {phase : DecPhase} (hs : s.dec.state = phase) (hne : phase ≠ .off) : s.dec.Configured :=
    hi.configured (hs ▸ hne)
  have hfault {phase : DecPhase} (hs : s.dec.state = phase) (hne : phase ≠ .off ∧ phase ≠ .halted) :
      s.dec.fault = .none := hi.fault_none (hs ▸ hne.1) (hs ▸ hne.2)
  have hlatch {phase : DecPhase} (hs : s.dec.state = phase) (hne : phase ≠ .cipher) : s.dec.inflight = .none :=
    hi.inflight_none (hs ▸ hne)
  have hquiet {phase : DecPhase} (hs : s.dec.state = phase) (hne : phase ≠ .cipher) : s.decPort.request = none :=
    hi.request_none (hs ▸ hne)
  cases h with
  | idle | offered | read | answered => exact hi.of_port rfl rfl
  | reset nonce => exact .of_off (.inl rfl) rfl
  | configFailed _ _ nonce _ _ hs => exact .of_off (.inr rfl) (hquiet hs (by decide))
  | closed _ _ nonce _ _ _ hs => exact .of_off (.inl rfl) (hi.request_none hs.2)
  | authFailed _ _ _ hs => exact .of_halted rfl (hconf hs (by decide)) hi.capacity (by simp) rfl rfl
  | opened _ _ _ _ hs => exact .of_scan rfl (hconf hs (by decide)) hi.capacity (hfault hs (by decide)) rfl rfl
  | appended _ _ chunk _ _ hs hfits =>
    exact .of_scan rfl (hconf hs (by decide)) (by simpa using hfits) (hfault hs (by decide)) (hlatch hs (by decide))
      (hquiet hs (by decide))
  | overflowed _ _ _ _ hs | truncated _ _ _ _ hs | malformed _ hs =>
    exact .of_halted rfl (hconf hs (by decide)) hi.capacity (by simp) rfl (hquiet hs (by decide))
  | rested _ hs hd =>
    exact .of_ready rfl (hconf hs (by decide)) (detect_wait hd).1 (detect_wait hd).2 hi.capacity
      (hfault hs (by decide)) (hlatch hs (by decide)) (hquiet hs (by decide))
  | extracted n _ hs hd =>
    obtain ⟨havailable, hlong, -⟩ := detect_frame hd
    have htag : s.dec.TB ≤ (parse s.dec (s.dec.pending.take n)).ctTag.length :=
      tag_le_parse_ctTag_length (by rwa [List.length_take_of_le havailable])
    exact .of_cipher (r := s.dec.request (parse s.dec (s.dec.pending.take n))) rfl (hconf hs (by decide))
      (allows_of_le (by simp) hi.capacity) (hfault hs (by decide)) rfl (Nat.lt_succ_self _)
      ⟨rfl, rfl, rfl, rfl, htag⟩
  | ended _ _ _ _ hs hp =>
    exact .of_ended rfl (hconf hs (by decide)) hp (hfault hs (by decide)) (hlatch hs (by decide))
      (hquiet hs (by decide))
  | configured _ _ key payload nonce _ _ _ hs hf hn =>
    obtain ⟨hkey, htag, hleast, hN, hpair, hframe, hlen⟩ := accepted_record hf
    obtain ⟨hN', hT', hA'⟩ := readRecord_le_lmax .dec payload
    have hnonce (hext : (readRecord .dec payload).EXT = true) : nonce.length = (readRecord .dec payload).N := by
      rw [hn hext]
      exact (readRecord_extNonce_length hlen).trans (if_pos hext)
    exact .of_ready rfl ⟨hkey, htag, hleast, hN, hpair, hnonce, hframe, hN', hT', hA'⟩ (fun _ => .inl (Nat.zero_lt_succ 3))
      (fun _ => rfl) rfl rfl rfl (hquiet hs (by decide))

/-- Every step keeps the invariants, under any parameters: it is an effect about one unit, and the other side stands. -/
theorem stepUnder_inv {p : Params} {s t : State} (hi : s.Inv p.pendingCap) (hstep : stepUnder p s = .next t) :
    t.Inv p.pendingCap := by
  obtain henc | hdec := stepUnder_effect hstep
  · obtain ⟨hd, hq⟩ := EncEffect_dec henc
    exact ⟨EncEffect_inv henc hi.enc, hd ▸ hq ▸ hi.dec⟩
  · obtain ⟨he, hq, -⟩ := DecEffect_enc hdec
    exact ⟨he ▸ hq ▸ hi.enc, DecEffect_inv hdec hi.dec⟩

/-- Settles O4: the machine's step is the step under the parameters of Config. -/
theorem stepKeepsInvariants : Obligations.StepKeepsInvariants := by
  intro s t hi hstep
  exact stepUnder_inv (p := Config.params) hi (step_eq_stepUnder s ▸ hstep)

/-- Settles O5: both units are in the reset state of `OFF`. -/
theorem invariantsHoldAtReset : Obligations.InvariantsHoldAtReset := fun _ =>
  ⟨.of_off rfl (.inl rfl) rfl, .of_off (.inl rfl) rfl⟩

end Sys2Proof.Machine
end

section
/-! Maps of the whole machine under which a unit's moves do the same: one that renames the handles of ENC's side and does not
look at the rest of it, `MapsEnc`, commutes with every move about ENC; likewise `MapsDec` for DEC. Renaming every handle is
such a map (10_state R21), and so is replacing the other unit's side (00_scope R2). -/

namespace Sys2Proof.Machine

def EncoderState.mapKey (f : Key → Key) (e : EncoderState) : EncoderState :=
  { e with key := f e.key }

def DecoderState.mapKey (f : Key → Key) (d : DecoderState) : DecoderState :=
  { d with key := f d.key }

def Instr.mapKey (f : Key → Key) : Instr → Instr
  | .encConfig key payload => .encConfig (f key) payload
  | .decConfig key payload => .decConfig (f key) payload
  | .encEncode chunk => .encEncode chunk
  | .decDecode chunk => .decDecode chunk
  | .decEnd => .decEnd
  | .encClose => .encClose
  | .decClose => .decClose

/-- The next state mapped; a stop stays the stop it is. -/
def mapNext (g : State → State) : Host.Outcome State Fault Refusal → Host.Outcome State Fault Refusal
  | .next s => .next (g s)
  | .fault r => .fault r
  | .refused r => .refused r

/-- A renaming of handles that the checks of `CONFIG` and the adapter do not notice. -/
structure Unnoticed (p : Params) (f : Key → Key) : Prop where
  invalid : ∀ k, f k = .invalid ↔ k = .invalid
  encrypt : ∀ data k nonce aad T, p.encrypt data (f k) nonce aad T = p.encrypt data k nonce aad T
  decrypt : ∀ data k nonce aad T, p.decrypt data (f k) nonce aad T = p.decrypt data k nonce aad T

/-- On ENC's side `g` renames the handles and passes every update on. -/
structure MapsEnc (f : Key → Key) (g : State → State) : Prop where
  put : ∀ s e q n, g { s with enc := e, encPort := q, draws := n } =
    { g s with enc := e.mapKey f, encPort := q.mapKey f, draws := n }

/-- On DEC's side `g` renames the handles and passes every update on. -/
structure MapsDec (f : Key → Key) (g : State → State) : Prop where
  put : ∀ s d q, g { s with dec := d, decPort := q } = { g s with dec := d.mapKey f, decPort := q.mapKey f }

/-! ### What the checks, the decoder and the adapter see of a renaming -/

theorem firstFailure_mapKey {p : Params} {f : Key → Key} (hf : Unnoticed p f) (u : UnitId) (key : Key) (payload : Bytes) :
    firstFailure u (f key) payload = firstFailure u key payload := by
  have hkey : (f key != .invalid) = (key != .invalid) := by
    rw [Bool.eq_iff_iff]
    simp [hf.invalid key]
  simp only [firstFailure, configChecks, hkey]

theorem adapterAnswer_mapKey {p : Params} {f : Key → Key} (hf : Unnoticed p f) (r : CipherRequest) :
    adapterAnswer p { r with key := f r.key } = adapterAnswer p r := by
  cases hop : r.op
  · simp only [adapterAnswer, hop, hf.encrypt]
  · simp only [adapterAnswer, hop, hf.decrypt]

theorem decode_mapKey (f : Key → Key) (u : UnitId) (c : Command) :
    decode u (Command.mapKey f c) = (decode u c).map (Instr.mapKey f) := by
  unfold decode Command.mapKey
  split <;> simp_all [Except.map, Instr.mapKey]

theorem wellFormed_mapKey (f : Key → Key) (cap : Capacity) (i : Instr) :
    (Instr.mapKey f i).wellFormed cap = i.wellFormed cap := by cases i <;> rfl

theorem encode_mapKey {p : Params} {f : Key → Key} (hf : Unnoticed p f) (i : Instr) :
    encode (Instr.mapKey f i) = Command.mapKey f (encode i) := by
  have hinvalid : f .invalid = .invalid := (hf.invalid _).2 rfl
  cases i <;> simp [Instr.mapKey, encode, Command.mapKey, hinvalid]

/-! ### Moves about ENC -/

section Enc
variable {p : Params} {f : Key → Key} {g : State → State}

theorem MapsEnc.enc (hg : MapsEnc f g) (s : State) : (g s).enc = s.enc.mapKey f :=
  congrArg State.enc (hg.put s s.enc s.encPort s.draws)

theorem MapsEnc.encPort (hg : MapsEnc f g) (s : State) : (g s).encPort = s.encPort.mapKey f :=
  congrArg State.encPort (hg.put s s.enc s.encPort s.draws)

theorem MapsEnc.draws (hg : MapsEnc f g) (s : State) : (g s).draws = s.draws :=
  (congrArg State.draws (hg.put s s.enc s.encPort s.draws)).trans rfl

theorem MapsEnc.map_setPort (hg : MapsEnc f g) (s : State) (q : Port) :
    g (s.setPort .enc q) = (g s).setPort .enc (q.mapKey f) :=
  (hg.put s s.enc q s.draws).trans (by simp [hg.enc, hg.draws])

theorem MapsEnc.map_respond (hg : MapsEnc f g) (r : Response) (s : State) :
    g (respond .enc r s) = respond .enc r (g s) :=
  (hg.put s _ _ _).trans (by simp [hg.enc, hg.encPort, hg.draws, Port.mapKey])

theorem MapsEnc.map_respondLatched (hg : MapsEnc f g) (s : State) :
    g (respondLatched .enc s) = respondLatched .enc (g s) := by
  rw [respondLatched, hg.map_respond, respondLatched, State.latched, State.latched, hg.enc]
  rfl

theorem MapsEnc.map_raiseFatal (hg : MapsEnc f g) (x : FatalError) (s : State) :
    g (raiseFatal .enc x s) = raiseFatal .enc x (g s) :=
  (hg.put s _ _ _).trans (by simp [hg.enc, hg.encPort, hg.draws, Port.mapKey, EncoderState.mapKey])

theorem MapsEnc.map_encIssue (hg : MapsEnc f g) (chunk : Bytes) (s : State) :
    g (encIssue chunk s) = encIssue chunk (g s) := by
  by_cases h : s.enc.LP = true ∧ lmax < s.enc.frameLength chunk
  · rw [encIssue_tooLong h, encIssue_tooLong (by rw [hg.enc]; exact h), hg.map_raiseFatal]
  · rw [encIssue_fits h, encIssue_fits (by rw [hg.enc]; exact h)]
    exact (hg.put s _ _ _).trans
      (by simp [hg.enc, hg.encPort, hg.draws, Port.mapKey, EncoderState.mapKey, EncoderState.request])

theorem MapsEnc.map_encFinish (hg : MapsEnc f g) (r : Response) (s : State) :
    g (encFinish r s) = encFinish r (g s) :=
  (hg.put s _ _ _).trans (by simp [encFinish, hg.enc, hg.encPort, hg.draws, Port.mapKey, EncoderState.mapKey])

theorem assemble_mapKey (f : Key → Key) (e : EncoderState) (ctTag : Bytes) :
    assemble (e.mapKey f) ctTag = assemble e ctTag := rfl

theorem MapsEnc.map_framed (hg : MapsEnc f g) (F : Bytes) (s : State) :
    g (encFinish .ok (rotate p (emit .enc F s))) = encFinish .ok (rotate p (emit .enc F (g s))) := by
  rw [rotate_eq, rotate_eq]
  exact (hg.put s _ _ _).trans
    (by cases hext : s.enc.EXT <;>
      simp [encFinish, hg.enc, hg.encPort, hg.draws, Port.mapKey, EncoderState.mapKey, drawnBytes, hext])

theorem MapsEnc.map_encReply (hg : MapsEnc f g) (reply : Option Bytes) (s : State) :
    g (encReply p reply s) = encReply p reply (g s) := by
  cases reply with
  | none => exact hg.map_encFinish .eCipher s
  | some ctTag =>
    have hframe : assemble (g s).enc ctTag = assemble s.enc ctTag := by rw [hg.enc, assemble_mapKey]
    cases hF : assemble s.enc ctTag with
    | none => rw [encReply_unframed p hF, encReply_unframed p (hframe.trans hF), hg.map_raiseFatal]
    | some F => rw [encReply_framed p hF, encReply_framed p (hframe.trans hF), hg.map_framed]

theorem MapsEnc.map_resetUnit (hg : MapsEnc f g) (hf : Unnoticed p f) (s : State) :
    g (resetUnit p .enc s) = resetUnit p .enc (g s) :=
  (hg.put s _ _ _).trans (by
    simp [hg.encPort, hg.draws, Port.mapKey, EncoderState.mapKey, EncoderState.resetWith, unspecifiedBytes,
      (hf.invalid _).2 rfl])

theorem MapsEnc.map_configFailed (hg : MapsEnc f g) (hf : Unnoticed p f) (s : State) :
    g (configFailed p .enc s) = configFailed p .enc (g s) :=
  (hg.put s _ _ _).trans (by
    simp [configFailed_enc, hg.encPort, hg.draws, Port.mapKey, EncoderState.mapKey, EncoderState.resetWith,
      unspecifiedBytes, (hf.invalid _).2 rfl])

theorem MapsEnc.map_loadEnc (hg : MapsEnc f g) (key : Key) (c : ConfigRecord) (s : State) :
    g (loadEnc p key c s) = loadEnc p (f key) c (g s) :=
  (hg.put s _ _ _).trans (by simp [loadEnc, firstNonce, drawnBytes, hg.encPort, hg.draws, EncoderState.mapKey])

theorem MapsEnc.map_encConfigRun (hg : MapsEnc f g) (hf : Unnoticed p f) (key : Key) (payload : Bytes) (s : State) :
    g (encConfigRun p key payload s) = encConfigRun p (f key) payload (g s) := by
  rw [encConfigRun, encConfigRun, firstFailure_mapKey hf]
  cases firstFailure .enc key payload with
  | some => exact hg.map_configFailed hf s
  | none => simp only [hg.map_respond, hg.map_loadEnc]

theorem MapsEnc.map_holdAtPort (hg : MapsEnc f g) (hf : Unnoticed p f) {i : Instr} (hi : i.unit = .enc) (s : State) :
    g (holdAtPort i s) = holdAtPort (Instr.mapKey f i) (g s) := by
  have hi' : (Instr.mapKey f i).unit = .enc := by cases i <;> exact hi
  rw [holdAtPort, holdAtPort, hi, hi', hg.map_setPort, encode_mapKey hf]
  simp [hg.encPort, Port.mapKey]

/-- The meaning of a command to ENC commutes with the map. -/
theorem MapsEnc.map_runWith (hg : MapsEnc f g) (hf : Unnoticed p f) {i : Instr} (hi : i.unit = .enc) (s : State) :
    mapNext g (runWith p i s) = runWith p (Instr.mapKey f i) (g s) := by
  have hphase : (g s).enc.state = s.enc.state := by rw [hg.enc]; rfl
  cases i with
  | decConfig | decDecode | decEnd | decClose => cases hi
  | encConfig key payload =>
    refine congrArg Host.Outcome.next ?_
    rw [encConfig, encConfig, hphase]
    cases s.enc.state with
    | off => exact hg.map_encConfigRun hf key payload s
    | ready => exact hg.map_respond _ s
    | halted => exact hg.map_respondLatched s
    | cipher => exact hg.map_holdAtPort hf rfl s
  | encEncode chunk =>
    refine congrArg Host.Outcome.next ?_
    rw [encEncode, encEncode, hphase]
    cases s.enc.state with
    | off => exact hg.map_respond _ s
    | ready => exact hg.map_encIssue chunk s
    | halted => exact hg.map_respondLatched s
    | cipher => exact hg.map_holdAtPort hf rfl s
  | encClose =>
    refine congrArg Host.Outcome.next ?_
    rw [encClose, encClose, hphase]
    cases s.enc.state with
    | off | ready | halted => exact (hg.map_respond _ _).trans (by rw [hg.map_resetUnit hf])
    | cipher => exact hg.map_holdAtPort hf rfl s

theorem MapsEnc.map_acceptCommand (hg : MapsEnc f g) (hf : Unnoticed p f) (s : State) :
    mapNext g (acceptCommand p (runWith p) .enc s) = acceptCommand p (runWith p) .enc (g s) := by
  cases hc : s.encPort.commands with
  | nil => simp [acceptCommand, hg.encPort, Port.mapKey, hc, mapNext]
  | cons c waiting =>
    have htaken : g (s.setPort .enc { s.encPort with commands := waiting }) =
        (g s).setPort .enc { (g s).encPort with commands := waiting.map (Command.mapKey f) } := by
      rw [hg.map_setPort, hg.encPort]
      rfl
    simp only [acceptCommand, port_enc, hc, hg.encPort, Port.mapKey, List.map_cons, decode_mapKey]
    cases hd : decode .enc c with
    | error e => exact congrArg Host.Outcome.next ((hg.map_respond _ _).trans (by rw [htaken, hg.encPort]; rfl))
    | ok i =>
      simp only [Except.map, wellFormed_mapKey]
      split
      · rw [hg.map_runWith hf (decode_unit hd), htaken, hg.encPort]
        rfl
      · rfl

/-- A move about ENC commutes with the map. -/
theorem MapsEnc.map_moveWith (hg : MapsEnc f g) (hf : Unnoticed p f) {m : Move} (hm : m.target = .enc) (s : State) :
    mapNext g (moveWith p (runWith p) m s) = moveWith p (runWith p) (m.mapKey f) (g s) := by
  have hphase : (g s).enc.state = s.enc.state := by rw [hg.enc]; rfl
  cases m with
  | offer u c =>
    cases hm
    refine congrArg Host.Outcome.next ((hg.map_setPort _ _).trans ?_)
    simp [offerMove, hg.encPort, Port.mapKey]
  | rst u =>
    cases hm
    refine congrArg Host.Outcome.next ((hg.map_setPort _ _).trans ?_)
    rw [hg.map_resetUnit hf]
    simp [assertReset, hg.encPort, Port.mapKey]
  | read u i =>
    cases hm
    refine congrArg Host.Outcome.next ((hg.map_setPort _ _).trans ?_)
    have hrd : encRead (g s).enc i = encRead s.enc i := by rw [hg.enc]; rfl
    simp [readMove, State.rd, hrd, hg.encPort, Port.mapKey]
  | reply u k =>
    cases hm
    refine congrArg Host.Outcome.next ?_
    simp only [replyMove, port_enc, hg.encPort, Port.mapKey]
    cases s.encPort.request with
    | none => rfl
    | some kr =>
      obtain ⟨k', r⟩ := kr
      simp only [Option.map_some, adapterAnswer_mapKey hf]
      split
      · simp only [takeReply, hphase]
        cases s.enc.state with
        | off | ready | halted => rfl
        | cipher => exact (hg.map_encReply _ _).trans (by rw [clearRequest, hg.map_setPort]; simp [hg.encPort, Port.mapKey])
      · rfl
  | unit u =>
    cases hm
    simp only [moveWith, unitMove, hphase, Move.mapKey]
    cases s.enc.state with
    | off | ready | halted => exact hg.map_acceptCommand hf s
    | cipher => rfl

end Enc
/-! ### Moves about DEC -/

section Dec
variable {p : Params} {f : Key → Key} {g : State → State}

theorem MapsDec.dec (hg : MapsDec f g) (s : State) : (g s).dec = s.dec.mapKey f :=
  congrArg State.dec (hg.put s s.dec s.decPort)

theorem MapsDec.decPort (hg : MapsDec f g) (s : State) : (g s).decPort = s.decPort.mapKey f :=
  congrArg State.decPort (hg.put s s.dec s.decPort)

theorem MapsDec.map_setPort (hg : MapsDec f g) (s : State) (q : Port) :
    g (s.setPort .dec q) = (g s).setPort .dec (q.mapKey f) :=
  (hg.put s s.dec q).trans (by simp [hg.dec])

theorem MapsDec.map_setDec (hg : MapsDec f g) (s : State) (d : DecoderState) :
    g { s with dec := d } = { g s with dec := d.mapKey f } :=
  (hg.put s d s.decPort).trans (by simp [hg.decPort])

theorem MapsDec.map_respond (hg : MapsDec f g) (r : Response) (s : State) :
    g (respond .dec r s) = respond .dec r (g s) :=
  (hg.put s _ _).trans (by simp [hg.dec, hg.decPort, Port.mapKey])

theorem MapsDec.map_respondLatched (hg : MapsDec f g) (s : State) :
    g (respondLatched .dec s) = respondLatched .dec (g s) := by
  rw [respondLatched, hg.map_respond, respondLatched, State.latched, State.latched, hg.dec]
  rfl

theorem MapsDec.map_raiseFatal (hg : MapsDec f g) (x : FatalError) (s : State) :
    g (raiseFatal .dec x s) = raiseFatal .dec x (g s) :=
  (hg.put s _ _).trans (by simp [hg.dec, hg.decPort, Port.mapKey, DecoderState.mapKey])

theorem MapsDec.map_decScan (hg : MapsDec f g) (s : State) : g (decScan s) = decScan (g s) := by
  have hdetect : detect (g s).dec = detect s.dec := by rw [hg.dec]; rfl
  rw [decScan, decScan, hdetect]
  cases detect s.dec with
  | wait => exact (hg.map_respond _ _).trans (by rw [hg.map_setDec, hg.dec]; rfl)
  | malformed => exact hg.map_raiseFatal _ s
  | frame n =>
    exact (hg.put s _ _).trans (by simp only [decExtract, issueRequest_dec_unit, hg.dec, hg.decPort]; rfl)

theorem MapsDec.map_decReply (hg : MapsDec f g) (reply : Option Bytes) (s : State) :
    g (decReply reply s) = decReply reply (g s) := by
  cases reply with
  | none => exact hg.map_raiseFatal _ s
  | some plaintext =>
    exact (hg.put s _ _).trans (by simp [decReply, hg.dec, hg.decPort, Port.mapKey, DecoderState.mapKey])

theorem MapsDec.map_decAccept (hg : MapsDec f g) (chunk : Bytes) (s : State) :
    g (decAccept p chunk s) = decAccept p chunk (g s) := by
  have hpending : (g s).dec.pending = s.dec.pending := by rw [hg.dec]; rfl
  rw [decAccept, decAccept, hpending]
  split
  · rw [hg.map_setDec, hg.dec]
    rfl
  · exact hg.map_raiseFatal _ s

theorem MapsDec.map_decEndRun (hg : MapsDec f g) (s : State) : g (decEndRun s) = decEndRun (g s) := by
  have hpending : (g s).dec.pending = s.dec.pending := by rw [hg.dec]; rfl
  rw [decEndRun, decEndRun, hpending]
  split
  · rw [hg.map_respond, hg.map_setDec, hg.dec]
    rfl
  · exact hg.map_raiseFatal _ s

theorem MapsDec.map_resetUnit (hg : MapsDec f g) (hf : Unnoticed p f) (s : State) :
    g (resetUnit p .dec s) = resetUnit p .dec (g s) :=
  (hg.put s _ _).trans (by
    simp [hg.decPort, Port.mapKey, DecoderState.mapKey, DecoderState.resetWith, unspecifiedBytes, (hf.invalid _).2 rfl])

theorem MapsDec.map_configFailed (hg : MapsDec f g) (hf : Unnoticed p f) (s : State) :
    g (configFailed p .dec s) = configFailed p .dec (g s) :=
  (hg.put s _ _).trans (by
    simp [configFailed_dec, hg.decPort, Port.mapKey, DecoderState.mapKey, DecoderState.resetWith, unspecifiedBytes,
      (hf.invalid _).2 rfl])

theorem MapsDec.map_loadDec (hg : MapsDec f g) (key : Key) (c : ConfigRecord) (s : State) :
    g (loadDec p key c s) = loadDec p (f key) c (g s) := by
  cases hext : c.EXT with
  | true =>
    simp only [loadDec, hext, if_true]
    rw [hg.map_setDec]
    rfl
  | false =>
    simp only [loadDec, hext, Bool.false_eq_true, if_false, spendFree_dec_unit]
    exact (hg.put s _ _).trans
      (by simp [unspecifiedBytes, hg.decPort, Port.mapKey, DecoderState.mapKey, DecoderState.accReset])

theorem MapsDec.map_decConfigRun (hg : MapsDec f g) (hf : Unnoticed p f) (key : Key) (payload : Bytes) (s : State) :
    g (decConfigRun p key payload s) = decConfigRun p (f key) payload (g s) := by
  rw [decConfigRun, decConfigRun, firstFailure_mapKey hf]
  cases firstFailure .dec key payload with
  | some => exact hg.map_configFailed hf s
  | none => simp only [hg.map_respond, hg.map_loadDec]

theorem MapsDec.map_holdAtPort (hg : MapsDec f g) (hf : Unnoticed p f) {i : Instr} (hi : i.unit = .dec) (s : State) :
    g (holdAtPort i s) = holdAtPort (Instr.mapKey f i) (g s) := by
  have hi' : (Instr.mapKey f i).unit = .dec := by cases i <;> exact hi
  rw [holdAtPort, holdAtPort, hi, hi', hg.map_setPort, encode_mapKey hf]
  simp [hg.decPort, Port.mapKey]

/-- The meaning of a command to DEC commutes with the map. -/
theorem MapsDec.map_runWith (hg : MapsDec f g) (hf : Unnoticed p f) {i : Instr} (hi : i.unit = .dec) (s : State) :
    mapNext g (runWith p i s) = runWith p (Instr.mapKey f i) (g s) := by
  have hphase : (g s).dec.state = s.dec.state := by rw [hg.dec]; rfl
  cases i with
  | encConfig | encEncode | encClose => cases hi
  | decConfig key payload =>
    refine congrArg Host.Outcome.next ?_
    rw [decConfig, decConfig, hphase]
    cases s.dec.state with
    | off => exact hg.map_decConfigRun hf key payload s
    | ready | ended => exact hg.map_respond _ s
    | halted => exact hg.map_respondLatched s
    | scan | cipher => exact hg.map_holdAtPort hf rfl s
  | decDecode chunk =>
    refine congrArg Host.Outcome.next ?_
    rw [decDecode, decDecode, hphase]
    cases s.dec.state with
    | off | ended => exact hg.map_respond _ s
    | ready => exact hg.map_decAccept chunk s
    | halted => exact hg.map_respondLatched s
    | scan | cipher => exact hg.map_holdAtPort hf rfl s
  | decEnd =>
    refine congrArg Host.Outcome.next ?_
    rw [decEnd, decEnd, hphase]
    cases s.dec.state with
    | off | ended => exact hg.map_respond _ s
    | ready => exact hg.map_decEndRun s
    | halted => exact hg.map_respondLatched s
    | scan | cipher => exact hg.map_holdAtPort hf rfl s
  | decClose =>
    refine congrArg Host.Outcome.next ?_
    rw [decClose, decClose, hphase]
    cases s.dec.state with
    | off | ready | halted | ended => exact (hg.map_respond _ _).trans (by rw [hg.map_resetUnit hf])
    | scan | cipher => exact hg.map_holdAtPort hf rfl s

theorem MapsDec.map_acceptCommand (hg : MapsDec f g) (hf : Unnoticed p f) (s : State) :
    mapNext g (acceptCommand p (runWith p) .dec s) = acceptCommand p (runWith p) .dec (g s) := by
  cases hc : s.decPort.commands with
  | nil => simp [acceptCommand, hg.decPort, Port.mapKey, hc, mapNext]
  | cons c waiting =>
    have htaken : g (s.setPort .dec { s.decPort with commands := waiting }) =
        (g s).setPort .dec { (g s).decPort with commands := waiting.map (Command.mapKey f) } := by
      rw [hg.map_setPort, hg.decPort]
      rfl
    simp only [acceptCommand, port_dec, hc, hg.decPort, Port.mapKey, List.map_cons, decode_mapKey]
    cases hd : decode .dec c with
    | error e => exact congrArg Host.Outcome.next ((hg.map_respond _ _).trans (by rw [htaken, hg.decPort]; rfl))
    | ok i =>
      simp only [Except.map, wellFormed_mapKey]
      split
      · rw [hg.map_runWith hf (decode_unit hd), htaken, hg.decPort]
        rfl
      · rfl

/-- A move about DEC commutes with the map. -/
theorem MapsDec.map_moveWith (hg : MapsDec f g) (hf : Unnoticed p f) {m : Move} (hm : m.target = .dec) (s : State) :
    mapNext g (moveWith p (runWith p) m s) = moveWith p (runWith p) (m.mapKey f) (g s) := by
  have hphase : (g s).dec.state = s.dec.state := by rw [hg.dec]; rfl
  cases m with
  | offer u c =>
    cases hm
    refine congrArg Host.Outcome.next ((hg.map_setPort _ _).trans ?_)
    simp [offerMove, hg.decPort, Port.mapKey]
  | rst u =>
    cases hm
    refine congrArg Host.Outcome.next ((hg.map_setPort _ _).trans ?_)
    rw [hg.map_resetUnit hf]
    simp [assertReset, hg.decPort, Port.mapKey]
  | read u i =>
    cases hm
    refine congrArg Host.Outcome.next ((hg.map_setPort _ _).trans ?_)
    have hrd : decRead (g s).dec i = decRead s.dec i := by rw [hg.dec]; rfl
    simp [readMove, State.rd, hrd, hg.decPort, Port.mapKey]
  | reply u k =>
    cases hm
    refine congrArg Host.Outcome.next ?_
    simp only [replyMove, port_dec, hg.decPort, Port.mapKey]
    cases s.decPort.request with
    | none => rfl
    | some kr =>
      obtain ⟨k', r⟩ := kr
      simp only [Option.map_some, adapterAnswer_mapKey hf]
      split
      · simp only [takeReply, hphase]
        cases s.dec.state with
        | off | ready | scan | halted | ended => rfl
        | cipher => exact (hg.map_decReply _ _).trans (by rw [clearRequest, hg.map_setPort]; simp [hg.decPort, Port.mapKey])
      · rfl
  | unit u =>
    cases hm
    simp only [moveWith, unitMove, hphase, Move.mapKey]
    cases s.dec.state with
    | off | ready | halted | ended => exact hg.map_acceptCommand hf s
    | scan => exact congrArg Host.Outcome.next (hg.map_decScan s)
    | cipher => rfl

end Dec

theorem stepUnder_cons {p : Params} {s : State} {m : Move} {rest : List Move} (hs : s.schedule = m :: rest) :
    stepUnder p s = moveWith p (runWith p) m { s with schedule := rest } :=
  stepWith_cons _ _ _ _ _ hs

/-! ### Renaming every handle -/

theorem mapsEnc_mapKey (f : Key → Key) : MapsEnc f (State.mapKey f) := ⟨fun _ _ _ _ => rfl⟩

theorem mapsDec_mapKey (f : Key → Key) : MapsDec f (State.mapKey f) := ⟨fun _ _ _ => rfl⟩

/-- Renaming every handle of the machine renames those of the next state (10_state R21). -/
theorem stepUnder_mapKey {p : Params} {f : Key → Key} (hf : Unnoticed p f) (s : State) :
    stepUnder p (s.mapKey f) = mapNext (State.mapKey f) (stepUnder p s) := by
  cases hs : s.schedule with
  | nil =>
    have hs' : (s.mapKey f).schedule = [] := by rw [State.mapKey, hs]; rfl
    rw [stepUnder, stepUnder, stepWith_nil _ _ _ hs, stepWith_nil _ _ _ hs']
    rfl
  | cons m rest =>
    have hs' : (s.mapKey f).schedule = m.mapKey f :: rest.map (Move.mapKey f) := by rw [State.mapKey, hs]; rfl
    rw [stepUnder_cons hs, stepUnder_cons hs']
    cases hm : m.target with
    | enc => exact ((mapsEnc_mapKey f).map_moveWith hf hm { s with schedule := rest }).symm
    | dec => exact ((mapsDec_mapKey f).map_moveWith hf hm { s with schedule := rest }).symm

/-- Settles O10: every move commutes with the renaming. -/
theorem keyIsNeverInspected : Obligations.KeyIsNeverInspected := by
  intro p f s t hinvalid hencrypt hdecrypt hstep
  rw [stepUnder_mapKey ⟨hinvalid, hencrypt, hdecrypt⟩, hstep]
  rfl

/-! ### Replacing the other unit's side -/

/-- The machine with another decoder and another port of it. -/
def State.withDecSide (d : DecoderState) (q : Port) (s : State) : State :=
  { s with dec := d, decPort := q }

/-- The machine with another encoder, other ports and other draws of it. -/
def State.withEncSide (e : EncoderState) (q : Port) (n : Nat) (s : State) : State :=
  { s with enc := e, encPort := q, draws := n }

theorem command_mapKey_id : Command.mapKey id = id := rfl

theorem port_mapKey_id (q : Port) : q.mapKey id = q := by
  simp [Port.mapKey, command_mapKey_id]

theorem move_mapKey_id (m : Move) : m.mapKey id = m := by cases m <;> rfl

theorem unnoticed_id (p : Params) : Unnoticed p id := ⟨fun _ => Iff.rfl, fun _ _ _ _ _ => rfl, fun _ _ _ _ _ => rfl⟩

theorem mapsEnc_withDecSide (d : DecoderState) (q : Port) : MapsEnc id (State.withDecSide d q) :=
  ⟨fun _ _ q' _ => by rw [port_mapKey_id q']; rfl⟩

theorem mapsDec_withEncSide (e : EncoderState) (q : Port) (n : Nat) : MapsDec id (State.withEncSide e q n) :=
  ⟨fun _ _ q' => by rw [port_mapKey_id q']; rfl⟩

/-- A step about ENC does the same whatever DEC's side is. -/
theorem step_withDecSide {s : State} {m : Move} {rest : List Move} (hs : s.schedule = m :: rest)
    (hm : m.target = .enc) (d : DecoderState) (q : Port) :
    step (s.withDecSide d q) = mapNext (State.withDecSide d q) (step s) := by
  have hs' : (s.withDecSide d q).schedule = m :: rest := hs
  rw [step_eq_stepUnder, step_eq_stepUnder, stepUnder_cons hs, stepUnder_cons hs',
    (mapsEnc_withDecSide d q).map_moveWith (unnoticed_id _) hm, move_mapKey_id]
  rfl

/-- A step about DEC does the same whatever ENC's side is. -/
theorem step_withEncSide {s : State} {m : Move} {rest : List Move} (hs : s.schedule = m :: rest)
    (hm : m.target = .dec) (e : EncoderState) (q : Port) (n : Nat) :
    step (s.withEncSide e q n) = mapNext (State.withEncSide e q n) (step s) := by
  have hs' : (s.withEncSide e q n).schedule = m :: rest := hs
  rw [step_eq_stepUnder, step_eq_stepUnder, stepUnder_cons hs, stepUnder_cons hs',
    (mapsDec_withEncSide e q n).map_moveWith (unnoticed_id _) hm, move_mapKey_id]
  rfl

/-- A step about ENC leaves DEC's side: replacing that side by itself changes nothing. -/
theorem step_enc_decSide {s t : State} {m : Move} {rest : List Move} (hs : s.schedule = m :: rest)
    (hm : m.target = .enc) (hstep : step s = .next t) : t.decSide = s.decSide := by
  have h : step s = mapNext (State.withDecSide s.dec s.decPort) (step s) := step_withDecSide hs hm s.dec s.decPort
  rw [hstep] at h
  have ht : t = t.withDecSide s.dec s.decPort := Host.Outcome.next.inj h
  exact (congrArg State.decSide ht).trans rfl

/-- A step about DEC leaves ENC's side: replacing that side by itself changes nothing. -/
theorem step_dec_encSide {s t : State} {m : Move} {rest : List Move} (hs : s.schedule = m :: rest)
    (hm : m.target = .dec) (hstep : step s = .next t) : t.encSide = s.encSide := by
  have h : step s = mapNext (State.withEncSide s.enc s.encPort s.draws) (step s) :=
    step_withEncSide hs hm s.enc s.encPort s.draws
  rw [hstep] at h
  have ht : t = t.withEncSide s.enc s.encPort s.draws := Host.Outcome.next.inj h
  exact (congrArg State.encSide ht).trans rfl

/-- Settles O9: a machine with the same side of one unit is the machine with the other side replaced. -/
theorem unitsAreIndependent : Obligations.UnitsAreIndependent := by
  constructor
  · intro s t m rest hs hstep
    cases hm : m.target with
    | enc => exact step_enc_decSide hs hm hstep
    | dec => exact step_dec_encSide hs hm hstep
  · intro s s' t m rest hs hs' hstep
    cases hm : m.target with
    | enc =>
      intro hside
      have hs'' : s' = s.withDecSide s'.dec s'.decPort := by
        cases s'
        simp_all [State.withDecSide]
      have h := step_withDecSide hs hm s'.dec s'.decPort
      rw [← hs'', hstep] at h
      exact ⟨_, h, rfl, rfl⟩
    | dec =>
      intro hside
      have hs'' : s' = s.withEncSide s'.enc s'.encPort s'.draws := by
        cases s'
        simp_all [State.withEncSide]
      have h := step_withEncSide hs hm s'.enc s'.encPort s'.draws
      rw [← hs'', hstep] at h
      exact ⟨_, h, rfl, rfl⟩

end Sys2Proof.Machine
end

section
/-! The configuration record (30_encoding R52): its fields lie one behind another, so writing and reading undo each other. -/

namespace Sys2Proof.Machine

/-- The `flags` byte: the three options above five reserved zeros (30_encoding R52). -/
theorem flagsByte_bits (EXT NIF LP : Bool) :
    let flags : Byte := 0#5 ++ BitVec.ofBool EXT ++ BitVec.ofBool NIF ++ BitVec.ofBool LP
    flags.getLsbD 0 = LP ∧ flags.getLsbD 1 = NIF ∧ flags.getLsbD 2 = EXT ∧ flags >>> 3 = 0#8 := by
  revert EXT NIF LP
  decide

/-- A byte with its reserved bits 0 is the three options it shows. -/
theorem flagsByte_of_bits : ∀ flags : Byte, flags >>> 3 = 0#8 →
    0#5 ++ BitVec.ofBool (flags.getLsbD 2) ++ BitVec.ofBool (flags.getLsbD 1) ++ BitVec.ofBool (flags.getLsbD 0) = flags := by
  decide

/-- The indices of the record's fields behind the flags. -/
theorem record_slices (flags : Byte) {n t a : Bytes} (x y : Bytes) (hn : n.length = 4) (ht : t.length = 4)
    (ha : a.length = 4) :
    slice (flags :: (n ++ t ++ a ++ x ++ y)) 1 5 = n ∧
    slice (flags :: (n ++ t ++ a ++ x ++ y)) 5 9 = t ∧
    slice (flags :: (n ++ t ++ a ++ x ++ y)) 9 13 = a ∧
    slice (flags :: (n ++ t ++ a ++ x ++ y)) 13 (13 + x.length) = x ∧
    slice (flags :: (n ++ t ++ a ++ x ++ y)) (13 + x.length) (13 + x.length + y.length) = y := by
  refine ⟨?_, ?_, ?_, ?_, ?_⟩
  · simpa [hn] using slice_append_middle [flags] n (t ++ a ++ x ++ y)
  · simpa [hn, ht] using slice_append_middle (flags :: n) t (a ++ x ++ y)
  · simpa [hn, ht, ha] using slice_append_middle (flags :: (n ++ t)) a (x ++ y)
  · simpa [hn, ht, ha] using slice_append_middle (flags :: (n ++ t ++ a)) x y
  · have hlen : (flags :: (n ++ t ++ a ++ x)).length = 13 + x.length := by simp [hn, ht, ha]; omega
    rw [← hlen]
    simpa using slice_append_middle (flags :: (n ++ t ++ a ++ x)) y []

/-- The record, when its byte strings have the lengths it states: DEC's has no additional data. -/
theorem writeRecord_eq (u : UnitId) {c : ConfigRecord} (hext : c.extNonce.length = c.E)
    (haad : c.length u = 13 + c.E + c.aad.length) :
    writeRecord u c = (0#5 ++ BitVec.ofBool c.EXT ++ BitVec.ofBool c.NIF ++ BitVec.ofBool c.LP) ::
      (be32Enc c.N ++ be32Enc c.T ++ be32Enc c.A ++ c.extNonce ++ c.aad) := by
  have hnonce : (if c.EXT then c.extNonce else []) = c.extNonce := by
    cases hx : c.EXT with
    | true => rfl
    | false => exact (List.length_eq_zero_iff.1 (by simpa [ConfigRecord.E, hx] using hext)).symm
  cases u with
  | enc => rw [writeRecord, hnonce]
  | dec => rw [writeRecord, hnonce, List.length_eq_zero_iff.1 (Nat.left_eq_add.1 haad)]

theorem readRecord_writeRecord (u : UnitId) {c : ConfigRecord} (hN : c.N ≤ lmax) (hT : c.T ≤ lmax) (hA : c.A ≤ lmax)
    (hext : c.extNonce.length = c.E) (haad : c.length u = 13 + c.E + c.aad.length) :
    readRecord u (writeRecord u c) = c := by
  obtain ⟨hLP, hNIF, hEXT, -⟩ := flagsByte_bits c.EXT c.NIF c.LP
  obtain ⟨hn, ht, ha, hx, hy⟩ := record_slices (0#5 ++ BitVec.ofBool c.EXT ++ BitVec.ofBool c.NIF ++ BitVec.ofBool c.LP)
    c.extNonce c.aad (be32Enc_length c.N) (be32Enc_length c.T) (be32Enc_length c.A)
  rw [hext] at hx hy
  rw [writeRecord_eq u hext haad, readRecord, if_neg (List.cons_ne_nil _ _)]
  simp only [recordFlags, List.headD_cons, hLP, hNIF, hEXT, hn, ht, ha, be32Dec_be32Enc hN, be32Dec_be32Enc hT,
    be32Dec_be32Enc hA]
  cases u with
  | enc =>
    rw [← haad] at hy
    exact congrArg₂ (fun x y => { c with extNonce := x, aad := y }) hx hy
  | dec =>
    exact congrArg₂ (fun x y => { c with extNonce := x, aad := y }) hx
      (List.length_eq_zero_iff.1 (Nat.left_eq_add.1 haad)).symm

theorem writeRecord_length (u : UnitId) {c : ConfigRecord} (hext : c.extNonce.length = c.E)
    (haad : c.length u = 13 + c.E + c.aad.length) : (writeRecord u c).length = c.length u := by
  rw [writeRecord_eq u hext haad, haad]
  simp only [List.length_cons, List.length_append, be32Enc_length, hext]
  omega

/-- Settles O14: the record is read where it was written, and the transaction of `CONFIG` carries it as it is. -/
theorem configRecordsRoundTrip : Obligations.ConfigRecordsRoundTrip := by
  intro u key c hN hT hA hext haad payload
  have hlen : c.length u = 13 + c.E + c.aad.length := by rw [haad]; cases u <;> rfl
  refine ⟨?transaction, readRecord_writeRecord u hN hT hA hext hlen, ?length, ?reserved⟩
  case transaction =>
    cases u with
    | enc => exact Laws.RoundTrip.encConfig key payload
    | dec => exact Laws.RoundTrip.decConfig key payload
  case length => exact (writeRecord_length u hext hlen).trans (hlen.trans (by rw [haad]; rfl))
  case reserved =>
    obtain ⟨-, -, -, hreserved⟩ := flagsByte_bits c.EXT c.NIF c.LP
    exact hreserved

/-- A record of at least 13 bytes is its flags, its three numbers and the bytes behind them. -/
theorem record_split {payload : Bytes} (h : 13 ≤ payload.length) :
    recordFlags payload :: (slice payload 1 5 ++ slice payload 5 9 ++ slice payload 9 13) = payload.take 13 := by
  have hflags : payload.take 1 = [recordFlags payload] := by
    cases payload with
    | nil => cases h
    | cons flags fields => rfl
  calc recordFlags payload :: (slice payload 1 5 ++ slice payload 5 9 ++ slice payload 9 13)
    _ = payload.take 1 ++ slice payload 1 5 ++ slice payload 5 9 ++ slice payload 9 13 := by
      simp only [hflags, List.cons_append, List.nil_append, List.append_assoc]
    _ = payload.take 13 := by
      rw [take_append_slice _ (by decide), take_append_slice _ (by decide), take_append_slice _ (by decide)]

/-- The three numbers of a record are written from the slices they were read from. -/
theorem be32Enc_readRecord (u : UnitId) {payload : Bytes} (h : 13 ≤ payload.length) :
    be32Enc (readRecord u payload).N = slice payload 1 5 ∧ be32Enc (readRecord u payload).T = slice payload 5 9 ∧
    be32Enc (readRecord u payload).A = slice payload 9 13 := by
  have hnumber {i j : Nat} (hj : j ≤ payload.length) (hij : j - i = 4) :
      be32Enc (be32Dec (slice payload i j)) = slice payload i j :=
    be32Enc_be32Dec ((slice_length _ _ _ hj).trans hij)
  have hne : payload ≠ [] := List.ne_nil_of_length_pos (by omega)
  rw [readRecord, if_neg hne]
  exact ⟨hnumber (by omega) rfl, hnumber (by omega) rfl, hnumber h rfl⟩

/-- The three options of a record with its reserved bits 0 are its flags. -/
theorem flags_readRecord (u : UnitId) {payload : Bytes} (hne : payload ≠ []) (h : recordFlags payload >>> 3 = 0#8) :
    0#5 ++ BitVec.ofBool (readRecord u payload).EXT ++ BitVec.ofBool (readRecord u payload).NIF ++
      BitVec.ofBool (readRecord u payload).LP = recordFlags payload := by
  rw [readRecord, if_neg hne]
  exact flagsByte_of_bits _ h

/-- The byte strings of a record of the length its fields ask for are what lies behind its numbers. -/
theorem readRecord_strings {u : UnitId} {payload : Bytes} (hne : payload ≠ [])
    (h : payload.length = (readRecord u payload).length u) :
    (readRecord u payload).extNonce = slice payload 13 (13 + (readRecord u payload).E) ∧
    (readRecord u payload).aad = slice payload (13 + (readRecord u payload).E) payload.length := by
  cases u with
  | enc =>
    rw [h, ConfigRecord.length, readRecord, if_neg hne]
    exact ⟨rfl, rfl⟩
  | dec =>
    have hnothing (n : Nat) : [] = slice payload n n := by simp [slice]
    rw [h, ConfigRecord.length, readRecord, if_neg hne]
    exact ⟨rfl, hnothing _⟩

/-- Settles O15: every field is written from the slice it was read from, and the slices cover the record. -/
theorem everyRecordBitIsRead : Obligations.EveryRecordBitIsRead := by
  intro u payload hlong hreserved hlen
  have hne : payload ≠ [] := List.ne_nil_of_length_pos (by omega)
  have hE : 13 + (readRecord u payload).E ≤ payload.length := by
    rw [hlen]
    cases u <;> simp only [ConfigRecord.length] <;> omega
  obtain ⟨hN, hT, hA⟩ := be32Enc_readRecord u hlong
  obtain ⟨hnonce, haad⟩ := readRecord_strings hne hlen
  have haadLength : (readRecord u payload).length u =
      13 + (readRecord u payload).E + (readRecord u payload).aad.length := by
    rw [haad, slice_length _ _ _ le_rfl, ← hlen]
    omega
  calc writeRecord u (readRecord u payload)
    _ = recordFlags payload :: (slice payload 1 5 ++ slice payload 5 9 ++ slice payload 9 13) ++
        (readRecord u payload).extNonce ++ (readRecord u payload).aad := by
      rw [writeRecord_eq u (readRecord_extNonce_length (.inr hlen)) haadLength,
        flags_readRecord u hne hreserved, hN, hT, hA]
      rfl
    _ = payload.take 13 ++ slice payload 13 (13 + (readRecord u payload).E) ++
        slice payload (13 + (readRecord u payload).E) payload.length := by rw [record_split hlong, ← hnonce, ← haad]
    _ = payload := by
      rw [take_append_slice _ (Nat.le_add_right _ _), take_append_slice _ hE, List.take_length]

end Sys2Proof.Machine
end

section
/-! Claims about every step: each is read off the list of effects, and a step about one unit leaves the other's side alone. -/

namespace Sys2Proof.Machine

theorem step_effect {s t : State} (h : step s = .next t) :
    EncEffect Config.params s s.schedule.tail t ∨ DecEffect Config.params s s.schedule.tail t :=
  stepUnder_effect (step_eq_stepUnder s ▸ h)

/-- As far as ENC goes, a step is an effect about ENC or leaves it alone. -/
theorem step_enc_effect {s t : State} (h : step s = .next t) :
    EncEffect Config.params s s.schedule.tail t ∨ t.enc = s.enc ∧ t.encPort = s.encPort :=
  (step_effect h).imp_right fun hdec => ⟨(DecEffect_enc hdec).1, (DecEffect_enc hdec).2.1⟩

/-- As far as DEC goes, a step is an effect about DEC or leaves it alone. -/
theorem step_dec_effect {s t : State} (h : step s = .next t) :
    DecEffect Config.params s s.schedule.tail t ∨ t.dec = s.dec ∧ t.decPort = s.decPort :=
  (step_effect h).symm.imp_right EncEffect_dec

/-- Every step takes the first move off the schedule. -/
theorem step_schedule {s t : State} (h : step s = .next t) : t.schedule = s.schedule.tail := by
  obtain henc | hdec := step_effect h
  · cases henc <;> rfl
  · cases hdec <;> rfl

/-! ### `pending` is a queue (10_state R27 item 3) -/

theorem DecEffect_pending {p : Params} {s t : State} {rest : List Move} (h : DecEffect p s rest t) :
    t.dec.pending = s.dec.pending ∨
    (s.dec.state = .ready ∧ t.dec.state = .scan ∧ ∃ chunk : Bytes, t.dec.pending = s.dec.pending ++ chunk) ∨
    (s.dec.state = .scan ∧ t.dec.state = .cipher ∧ ∃ frame : Bytes, s.dec.pending = frame ++ t.dec.pending) ∨
    (t.dec.pending = [] ∧ (t.dec.state = .off ∨ s.dec.state = .off)) := by
  cases h with
  | appended _ _ chunk _ _ hs => exact .inr (.inl ⟨hs, rfl, chunk, rfl⟩)
  | extracted n _ hs => exact .inr (.inr (.inl ⟨hs, rfl, _, (List.take_append_drop n _).symm⟩))
  | reset | configFailed | closed => exact .inr (.inr (.inr ⟨rfl, .inl rfl⟩))
  | configured _ _ _ _ _ _ _ _ hs => exact .inr (.inr (.inr ⟨rfl, .inr hs⟩))
  | idle | offered | read | authFailed | opened | answered | overflowed | rested | malformed | ended | truncated =>
    exact .inl rfl

/-- Settles O6: read off the effects about DEC. -/
theorem pendingIsAQueue : Obligations.PendingIsAQueue := by
  intro s t hstep
  obtain hdec | ⟨hd, -⟩ := step_dec_effect hstep
  · exact DecEffect_pending hdec
  · exact .inl (hd ▸ rfl)

/-! ### What one step sends (20_memory R38) -/

/-- The items one step may send: nothing, a chunk, a response, or a chunk before its response. -/
def OneStepsItems (items : List HostEvent) : Prop :=
  items = [] ∨ (∃ b, items = [.chunk b]) ∨ (∃ r, items = [.response r]) ∨ ∃ b r, items = [.chunk b, .response r]

theorem EncEffect_sent {p : Params} {s t : State} {rest : List Move} (h : EncEffect p s rest t) :
    ∃ items, t.encPort.sent = s.encPort.sent ++ items ∧ OneStepsItems items := by
  cases h with
  | idle | offered | read | reset | issued => exact ⟨[], (List.append_nil _).symm, .inl rfl⟩
  | framed => exact ⟨_, rfl, .inr (.inr (.inr ⟨_, _, rfl⟩))⟩
  | cipherFailed | oversize | answered | tooLong | configured | configFailed | closed =>
    exact ⟨_, rfl, .inr (.inr (.inl ⟨_, rfl⟩))⟩

theorem DecEffect_sent {p : Params} {s t : State} {rest : List Move} (h : DecEffect p s rest t) :
    ∃ items, t.decPort.sent = s.decPort.sent ++ items ∧ OneStepsItems items := by
  cases h with
  | idle | offered | read | reset | appended | extracted => exact ⟨[], (List.append_nil _).symm, .inl rfl⟩
  | opened => exact ⟨_, rfl, .inr (.inl ⟨_, rfl⟩)⟩
  | authFailed | answered | overflowed | rested | malformed | ended | truncated | configured | configFailed | closed =>
    exact ⟨_, rfl, .inr (.inr (.inl ⟨_, rfl⟩))⟩

/-- Settles O7: read off the effects about the unit; the other unit's step sends nothing here. -/
theorem outputsPrecedeTheResponse : Obligations.OutputsPrecedeTheResponse := by
  intro s t u hstep
  cases u with
  | enc =>
    obtain henc | ⟨-, hq⟩ := step_enc_effect hstep
    · exact EncEffect_sent henc
    · exact ⟨[], by simp [hq], .inl rfl⟩
  | dec =>
    obtain hdec | ⟨-, hq⟩ := step_dec_effect hstep
    · exact DecEffect_sent hdec
    · exact ⟨[], by simp [hq], .inl rfl⟩

/-! ### The configuration while in use (20_memory R40) -/

theorem EncEffect_configuration {p : Params} {s t : State} {rest : List Move} (h : EncEffect p s rest t)
    (hbefore : s.enc.state ≠ .off) (hafter : t.enc.state ≠ .off) : t.enc.configuration = s.enc.configuration := by
  cases h with
  | reset | closed | configFailed => exact absurd rfl hafter
  | configured _ _ _ _ _ _ _ _ hs => exact absurd hs hbefore
  | idle | offered | read | cipherFailed | oversize | framed | answered | tooLong | issued => rfl

theorem DecEffect_configuration {p : Params} {s t : State} {rest : List Move} (h : DecEffect p s rest t)
    (hbefore : s.dec.state ≠ .off) (hafter : t.dec.state ≠ .off) : t.dec.configuration = s.dec.configuration := by
  cases h with
  | reset | closed | configFailed => exact absurd rfl hafter
  | configured _ _ _ _ _ _ _ _ hs => exact absurd hs hbefore
  | idle | offered | read | authFailed | opened | answered | appended | overflowed | rested | malformed | extracted
  | ended | truncated => rfl

/-- Settles O8: only `CONFIG` writes the configuration, and it starts in `OFF`. -/
theorem configurationIsFixedWhileInUse : Obligations.ConfigurationIsFixedWhileInUse := by
  intro s t hstep
  constructor
  · intro hbefore hafter
    obtain henc | ⟨he, -⟩ := step_enc_effect hstep
    · exact EncEffect_configuration henc hbefore hafter
    · rw [he]
  · intro hbefore hafter
    obtain hdec | ⟨hd, -⟩ := step_dec_effect hstep
    · exact DecEffect_configuration hdec hbefore hafter
    · rw [hd]

/-! ### The length field of an emitted frame (42_frame_encoder R86 (a)) -/

/-- A frame assembled in prefixed mode begins with its own length. -/
theorem assemble_lengthField {e : EncoderState} {ctTag F : Bytes} (hlp : e.LP = true) (h : assemble e ctTag = some F) :
    F.length ≤ lmax ∧ be32Dec (slice F 0 4) = F.length := by
  obtain ⟨hF, hfits⟩ := assemble_some h
  rw [if_pos hlp] at hF
  have hlen : F.length = 4 + (e.body ctTag).length := by rw [hF, List.length_append, be32Enc_length]
  have hhead : slice F 0 4 = be32Enc (4 + (e.body ctTag).length) := by rw [hF, slice_zero]; rfl
  exact ⟨hlen ▸ hfits hlp, by rw [hhead, be32Dec_be32Enc (hfits hlp), hlen]⟩

theorem EncEffect_chunk {p : Params} {s t : State} {rest : List Move} {F : Bytes} (h : EncEffect p s rest t)
    (hF : .chunk F ∈ t.encPort.sent) : .chunk F ∈ s.encPort.sent ∨ ∃ ctTag, assemble s.enc ctTag = some F := by
  cases h with
  | idle | offered | read | reset | issued => exact .inl hF
  | framed _ _ ctTag _ _ _ _ _ _ _ hf =>
    obtain hF | hF := List.mem_append.1 hF
    · exact .inl hF
    · obtain rfl : F = _ := by simpa using hF
      exact .inr ⟨ctTag, hf⟩
  | cipherFailed | oversize | answered | tooLong | configured | configFailed | closed =>
    exact .inl (by simpa using hF)

/-- Settles O24: a new chunk is an assembled frame. -/
theorem emittedFramesCarryTheirLength : Obligations.EmittedFramesCarryTheirLength := by
  intro p s t F hstep hlp hF
  obtain henc | hdec := stepUnder_effect hstep
  · refine (EncEffect_chunk henc hF).imp_right ?_
    rintro ⟨ctTag, hframe⟩
    exact (assemble_lengthField hlp hframe).2
  · exact .inl ((DecEffect_enc hdec).2.1 ▸ hF)

/-! ### `HALTED` (44_config R109) -/

theorem chunksOf_append_response (sent : List HostEvent) (r : Response) :
    chunksOf (sent ++ [.response r]) = chunksOf sent := by
  simp [chunksOf]

theorem EncEffect_halted {p : Params} {s t : State} {rest : List Move} (h : EncEffect p s rest t)
    (hs : s.enc.state = .halted) :
    (t.enc = s.enc ∧ chunksOf t.encPort.sent = chunksOf s.encPort.sent ∧ t.encPort.request = s.encPort.request) ∨
    s.schedule.head? = some (.rst .enc) ∨
    (s.schedule.head? = some (.unit .enc) ∧ (s.encPort.commands.head?.map Command.code) = some 0x05#8) := by
  cases h with
  | idle | offered | read => exact .inl ⟨rfl, rfl, rfl⟩
  | answered => exact .inl ⟨rfl, chunksOf_append_response _ _, rfl⟩
  | reset _ _ hm => exact .inr (.inl hm)
  | closed c _ _ _ hm hw hc => exact .inr (.inr ⟨hm, by rw [hw, List.head?_cons, Option.map_some, hc]⟩)
  | cipherFailed _ _ _ h' | oversize _ _ _ _ h' | framed _ _ _ _ _ _ _ h' | tooLong _ _ _ _ h' | issued _ _ _ _ _ h'
  | configured _ _ _ _ _ _ _ _ h' | configFailed _ _ _ _ _ _ h' => cases h'.symm.trans hs

theorem DecEffect_halted {p : Params} {s t : State} {rest : List Move} (h : DecEffect p s rest t)
    (hs : s.dec.state = .halted) :
    (t.dec = s.dec ∧ chunksOf t.decPort.sent = chunksOf s.decPort.sent ∧ t.decPort.request = s.decPort.request) ∨
    s.schedule.head? = some (.rst .dec) ∨
    (s.schedule.head? = some (.unit .dec) ∧ (s.decPort.commands.head?.map Command.code) = some 0x05#8) := by
  cases h with
  | idle | offered | read => exact .inl ⟨rfl, rfl, rfl⟩
  | answered => exact .inl ⟨rfl, chunksOf_append_response _ _, rfl⟩
  | reset _ hm => exact .inr (.inl hm)
  | closed c _ _ hm hw hc => exact .inr (.inr ⟨hm, by rw [hw, List.head?_cons, Option.map_some, hc]⟩)
  | authFailed _ _ _ h' | opened _ _ _ _ h' | appended _ _ _ _ _ h' | overflowed _ _ _ _ h' | rested _ h'
  | malformed _ h' | extracted _ _ h' | ended _ _ _ _ h' | truncated _ _ _ _ h' | configured _ _ _ _ _ _ _ _ h'
  | configFailed _ _ _ _ _ h' => cases h'.symm.trans hs

/-- Settles O49: of the effects on a halted unit only `RST` and `CLOSE` do more than answer. -/
theorem haltedUnitsStayHalted : Obligations.HaltedUnitsStayHalted := by
  constructor
  · intro s t hstep hs
    obtain henc | ⟨he, hq⟩ := step_enc_effect hstep
    · exact EncEffect_halted henc hs
    · exact .inl ⟨he, by rw [hq], by rw [hq]⟩
  · intro s t hstep hs
    obtain hdec | ⟨hd, hq⟩ := step_dec_effect hstep
    · exact DecEffect_halted hdec hs
    · exact .inl ⟨hd, by rw [hq], by rw [hq]⟩

/-! ### The phase transitions (44_config R111) -/

theorem EncEffect_phase {p : Params} {s t : State} {rest : List Move} (h : EncEffect p s rest t) :
    t.enc.state = s.enc.state ∨ t.enc.state = .off ∨
      (s.enc.state, t.enc.state) ∈
        [(EncPhase.off, EncPhase.ready), (.ready, .halted), (.ready, .cipher), (.cipher, .ready), (.cipher, .halted)] := by
  cases h with
  | idle | offered | read | answered => exact .inl rfl
  | reset | configFailed | closed => exact .inr (.inl rfl)
  | cipherFailed _ _ _ hs | oversize _ _ _ _ hs | framed _ _ _ _ _ _ _ hs | tooLong _ _ _ _ hs | issued _ _ _ _ _ hs
  | configured _ _ _ _ _ _ _ _ hs =>
    exact .inr (.inr (by simp [hs]))

theorem DecEffect_phase {p : Params} {s t : State} {rest : List Move} (h : DecEffect p s rest t) :
    t.dec.state = s.dec.state ∨ t.dec.state = .off ∨
      (s.dec.state, t.dec.state) ∈
        [(DecPhase.off, DecPhase.ready), (.ready, .halted), (.ready, .scan), (.scan, .ready), (.scan, .halted),
          (.scan, .cipher), (.cipher, .scan), (.cipher, .halted), (.ready, .ended)] := by
  cases h with
  | idle | offered | read | answered => exact .inl rfl
  | reset | configFailed | closed => exact .inr (.inl rfl)
  | authFailed _ _ _ hs | opened _ _ _ _ hs | appended _ _ _ _ _ hs | overflowed _ _ _ _ hs | rested _ hs
  | malformed _ hs | extracted _ _ hs | ended _ _ _ _ hs | truncated _ _ _ _ hs | configured _ _ _ _ _ _ _ _ hs =>
    exact .inr (.inr (by simp [hs]))

/-- Settles O50: each effect makes one change of the table, or none. -/
theorem phaseTransitions : Obligations.PhaseTransitions := by
  intro s t hstep
  constructor
  · obtain henc | ⟨he, -⟩ := step_enc_effect hstep
    · exact EncEffect_phase henc
    · exact .inl (he ▸ rfl)
  · obtain hdec | ⟨hd, -⟩ := step_dec_effect hstep
    · exact DecEffect_phase hdec
    · exact .inl (hd ▸ rfl)

/-! ### The fault code is sticky (10_state R25) -/

/-- A latched fault is that of a unit in `OFF` or `HALTED`, so an effect on a unit at work cannot overwrite one. -/
theorem EncEffect_fault {p : Params} {s t : State} {rest : List Move} (h : EncEffect p s rest t)
    (hs : s.enc.state = .off ∨ s.enc.state = .halted) :
    t.enc.fault = s.enc.fault ∨ t.enc.state = .off ∨ s.enc.state = .off := by
  cases h with
  | idle | offered | read | answered | cipherFailed | framed | issued => exact .inl rfl
  | reset | closed | configFailed => exact .inr (.inl rfl)
  | configured _ _ _ _ _ _ _ _ h' => exact .inr (.inr h')
  | oversize _ _ _ _ h' | tooLong _ _ _ _ h' => simp [h'] at hs

theorem DecEffect_fault {p : Params} {s t : State} {rest : List Move} (h : DecEffect p s rest t)
    (hs : s.dec.state = .off ∨ s.dec.state = .halted) :
    t.dec.fault = s.dec.fault ∨ t.dec.state = .off ∨ s.dec.state = .off := by
  cases h with
  | idle | offered | read | answered | opened | appended | rested | extracted | ended => exact .inl rfl
  | reset | closed | configFailed => exact .inr (.inl rfl)
  | configured _ _ _ _ _ _ _ _ h' => exact .inr (.inr h')
  | authFailed _ _ _ h' | overflowed _ _ _ _ h' | malformed _ h' | truncated _ _ _ _ h' => simp [h'] at hs

/-- Settles O52: by the invariants a nonzero fault is that of a halted unit or of one in `OFF`. -/
theorem faultIsSticky : Obligations.FaultIsSticky := by
  intro s t hi hstep
  constructor
  · intro hfault
    have hs := (hi.enc.fault.1 hfault).symm.imp_left And.left
    obtain henc | ⟨he, -⟩ := step_enc_effect hstep
    · exact EncEffect_fault henc hs
    · exact .inl (he ▸ rfl)
  · intro hfault
    have hs := (hi.dec.fault.1 hfault).symm.imp_left And.left
    obtain hdec | ⟨hd, -⟩ := step_dec_effect hstep
    · exact DecEffect_fault hdec hs
    · exact .inl (hd ▸ rfl)

end Sys2Proof.Machine
end

section
/-! Claims about every run: a property that every step keeps holds at the end of a run that begins with it. -/

namespace Sys2Proof.Machine

/-- A run goes on from where its first step leads. -/
theorem run_succ_of_step {n : Nat} {s s' : State} (hstep : step s = .next s') :
    Host.Core.run core (n + 1) s = Host.Core.run core n s' := by
  have hcore : core.step s = .next s' := hstep
  simp only [Host.Core.run, hcore]

/-- A run that ends has a first step. -/
theorem step_of_run_succ {n : Nat} {s t : State} (hrun : Host.Core.run core (n + 1) s = .next t) :
    ∃ s', step s = .next s' := by
  cases hstep : step s with
  | next s' => exact ⟨s', rfl⟩
  | fault r | refused r =>
    have hcore : core.step s = _ := hstep
    simp only [Host.Core.run, hcore] at hrun
    cases hrun

theorem run_keeps {P : State → Prop} (hkeeps : ∀ s t, P s → step s = .next t → P t) {n : Nat} {s t : State}
    (hs : P s) (hrun : Host.Core.run core n s = .next t) : P t := by
  induction n generalizing s with
  | zero =>
    cases hrun
    exact hs
  | succ n ih =>
    obtain ⟨s', hstep⟩ := step_of_run_succ hrun
    rw [run_succ_of_step hstep] at hrun
    exact ih (hkeeps s s' hs hstep) hrun

/-! ### A forgotten request (70_reset R125) -/

/-- The ticket has been given out, and no request outstanding on the port has it. -/
def Port.Forgot (k : Nat) (q : Port) : Prop :=
  k < q.tickets ∧ ∀ t r, q.request = some (t, r) → t ≠ k

theorem Port.Forgot.of_none {k : Nat} {q : Port} (hk : k < q.tickets) (hq : q.request = none) : q.Forgot k :=
  ⟨hk, by simp [hq]⟩

theorem Port.Forgot.of_new {k : Nat} {q q' : Port} {r : CipherRequest} (h : q.Forgot k)
    (hq : q'.request = some (q.tickets, r)) (ht : q'.tickets = q.tickets + 1) : q'.Forgot k := by
  refine ⟨ht ▸ Nat.lt_succ_of_lt h.1, ?_⟩
  rintro t r' hr'
  cases hq.symm.trans hr'
  exact h.1.ne'

/-- A new request gets a new ticket, so no effect brings a forgotten one back. -/
theorem EncEffect_forgot {p : Params} {s t : State} {rest : List Move} {k : Nat} (h : EncEffect p s rest t)
    (hk : s.encPort.Forgot k) : t.encPort.Forgot k := by
  cases h with
  | idle | offered | read | answered | tooLong | configured | configFailed | closed => exact ⟨hk.1, hk.2⟩
  | reset | cipherFailed | oversize | framed => exact .of_none hk.1 rfl
  | issued => exact hk.of_new rfl rfl

theorem DecEffect_forgot {p : Params} {s t : State} {rest : List Move} {k : Nat} (h : DecEffect p s rest t)
    (hk : s.decPort.Forgot k) : t.decPort.Forgot k := by
  cases h with
  | idle | offered | read | answered | appended | overflowed | rested | malformed | ended | truncated | configured
  | configFailed | closed => exact ⟨hk.1, hk.2⟩
  | reset | authFailed | opened => exact .of_none hk.1 rfl
  | extracted => exact hk.of_new rfl rfl

theorem step_forgot {u : UnitId} {k : Nat} (s t : State) (hk : (s.port u).Forgot k) (hstep : step s = .next t) :
    (t.port u).Forgot k := by
  cases u with
  | enc =>
    obtain henc | ⟨-, hq⟩ := step_enc_effect hstep
    · exact EncEffect_forgot henc hk
    · rw [port_enc, hq]
      exact hk
  | dec =>
    obtain hdec | ⟨-, hq⟩ := step_dec_effect hstep
    · exact DecEffect_forgot hdec hk
    · rw [port_dec, hq]
      exact hk

/-- A reply to any other request than the outstanding one is ignored. -/
theorem step_reply_ignored {s : State} {u : UnitId} {k : Nat} (more : List Move)
    (hk : ∀ t r, (s.port u).request = some (t, r) → t ≠ k) :
    step { s with schedule := .reply u k :: more } = .next { s with schedule := more } := by
  have hq : (State.port { s with schedule := more } u).request = (s.port u).request := by cases u <;> rfl
  rw [step_eq_stepUnder, stepUnder_cons rfl]
  refine congrArg Host.Outcome.next ?_
  cases hr : (s.port u).request with
  | none => simp only [replyMove, hq, hr]
  | some tr =>
    obtain ⟨t, r⟩ := tr
    simp only [replyMove, hq, hr, if_neg (hk t r hr)]

/-- Under the invariants an outstanding request's ticket has been given out. -/
theorem State.Inv.ticket_lt {cap : Capacity} {s : State} (hi : s.Inv cap) {u : UnitId} {k : Nat} {r : CipherRequest}
    (hr : (s.port u).request = some (k, r)) : k < (s.port u).tickets := by
  cases u with
  | enc => exact hi.enc.fresh k r hr
  | dec => exact hi.dec.fresh k r hr

/-- `RST` makes the unit forget its request. -/
theorem forgot_of_rst {s : State} {u : UnitId} {rest : List Move} {k : Nat} (p : Params)
    (hk : k < (s.port u).tickets) : ((assertReset p u { s with schedule := rest }).port u).Forgot k := by
  cases u with
  | enc => exact .of_none hk rfl
  | dec => exact .of_none hk rfl

/-- Settles O54: `RST` forgets the request, and a forgotten ticket stays forgotten along any run. -/
theorem lateRepliesAreIgnored : Obligations.LateRepliesAreIgnored := by
  intro s t t' u rest moves more k n r hi hs hr hstep hrun
  obtain rfl := Host.Outcome.next.inj ((step_rst hs).symm.trans hstep)
  refine step_reply_ignored more (And.right (run_keeps (step_forgot (u := u)) ?_ hrun))
  have hforgot := forgot_of_rst (rest := rest) Config.params (hi.ticket_lt hr)
  cases u <;> exact hforgot

/-! ### Waiting for the adapter (41_aead_adapter R75) -/

/-- A waiting encoder stays as it is as long as the moves bring neither the reply nor `RST`. -/
theorem EncEffect_waiting {p : Params} {s t : State} {rest : List Move} {k : Nat} {r : CipherRequest}
    (h : EncEffect p s rest t) (hs : s.enc.state = .cipher) (hr : s.encPort.request = some (k, r))
    (hreply : .reply .enc k ∉ s.schedule) (hrst : .rst .enc ∉ s.schedule) :
    t.enc = s.enc ∧ t.encPort.request = s.encPort.request ∧ t.encPort.sent = s.encPort.sent ∧
      s.encPort.commands <+: t.encPort.commands := by
  cases h with
  | idle | read => exact ⟨rfl, rfl, rfl, [], List.append_nil _⟩
  | offered c => exact ⟨rfl, rfl, rfl, [c], rfl⟩
  | reset _ _ hm => exact absurd (List.mem_of_mem_head? hm) hrst
  | cipherFailed _ _ hm _ hr' | oversize _ _ _ hm _ hr' | framed _ _ _ _ _ _ hm _ hr' =>
    cases hr.symm.trans hr'
    exact absurd (List.mem_of_mem_head? hm) hreply
  | answered _ _ _ _ _ hs' => exact absurd hs hs'
  | closed _ _ _ _ _ _ _ hs' => exact absurd hs hs'
  | tooLong _ _ _ _ hs' | issued _ _ _ _ _ hs' | configured _ _ _ _ _ _ _ _ hs' | configFailed _ _ _ _ _ _ hs' =>
    cases hs.symm.trans hs'

/-- A waiting decoder stays as it is as long as the moves bring neither the reply nor `RST`. -/
theorem DecEffect_waiting {p : Params} {s t : State} {rest : List Move} {k : Nat} {r : CipherRequest}
    (h : DecEffect p s rest t) (hs : s.dec.state = .cipher) (hr : s.decPort.request = some (k, r))
    (hreply : .reply .dec k ∉ s.schedule) (hrst : .rst .dec ∉ s.schedule) :
    t.dec = s.dec ∧ t.decPort.request = s.decPort.request ∧ t.decPort.sent = s.decPort.sent ∧
      s.decPort.commands <+: t.decPort.commands := by
  cases h with
  | idle | read => exact ⟨rfl, rfl, rfl, [], List.append_nil _⟩
  | offered c => exact ⟨rfl, rfl, rfl, [c], rfl⟩
  | reset _ hm => exact absurd (List.mem_of_mem_head? hm) hrst
  | authFailed _ _ hm _ hr' | opened _ _ _ hm _ hr' =>
    cases hr.symm.trans hr'
    exact absurd (List.mem_of_mem_head? hm) hreply
  | answered _ _ _ _ _ hs' => exact absurd hs hs'.2
  | closed _ _ _ _ _ _ hs' => exact absurd hs hs'.2
  | appended _ _ _ _ _ hs' | overflowed _ _ _ _ hs' | rested _ hs' | malformed _ hs' | extracted _ _ hs'
  | ended _ _ _ _ hs' | truncated _ _ _ _ hs' | configured _ _ _ _ _ _ _ _ hs' | configFailed _ _ _ _ _ hs' =>
    cases hs.symm.trans hs'

/-- What stays true of a waiting encoder along a run from `s` without its reply and without `RST`. -/
structure EncWaits (k : Nat) (s t : State) : Prop where
  enc : t.enc = s.enc
  request : t.encPort.request = s.encPort.request
  sent : t.encPort.sent = s.encPort.sent
  commands : s.encPort.commands <+: t.encPort.commands
  noReply : .reply .enc k ∉ t.schedule
  noReset : .rst .enc ∉ t.schedule

structure DecWaits (k : Nat) (s t : State) : Prop where
  dec : t.dec = s.dec
  request : t.decPort.request = s.decPort.request
  sent : t.decPort.sent = s.decPort.sent
  commands : s.decPort.commands <+: t.decPort.commands
  noReply : .reply .dec k ∉ t.schedule
  noReset : .rst .dec ∉ t.schedule

theorem encWaits_step {k : Nat} {r : CipherRequest} {s : State} (hs : s.enc.state = .cipher)
    (hr : s.encPort.request = some (k, r)) (t t' : State) (h : EncWaits k s t) (hstep : step t = .next t') :
    EncWaits k s t' := by
  have hleft {m : Move} (hm : m ∉ t.schedule) : m ∉ t'.schedule :=
    step_schedule hstep ▸ fun hmem => hm (List.mem_of_mem_tail hmem)
  have hone : t'.enc = t.enc ∧ t'.encPort.request = t.encPort.request ∧ t'.encPort.sent = t.encPort.sent ∧
      t.encPort.commands <+: t'.encPort.commands := by
    obtain henc | ⟨he, hq⟩ := step_enc_effect hstep
    · exact EncEffect_waiting henc (h.enc ▸ hs) (h.request ▸ hr) h.noReply h.noReset
    · exact ⟨he, by rw [hq], by rw [hq], by rw [hq]⟩
  obtain ⟨he, hreq, hsent, hcommands⟩ := hone
  exact ⟨he.trans h.enc, hreq.trans h.request, hsent.trans h.sent, h.commands.trans hcommands, hleft h.noReply,
    hleft h.noReset⟩

theorem decWaits_step {k : Nat} {r : CipherRequest} {s : State} (hs : s.dec.state = .cipher)
    (hr : s.decPort.request = some (k, r)) (t t' : State) (h : DecWaits k s t) (hstep : step t = .next t') :
    DecWaits k s t' := by
  have hleft {m : Move} (hm : m ∉ t.schedule) : m ∉ t'.schedule :=
    step_schedule hstep ▸ fun hmem => hm (List.mem_of_mem_tail hmem)
  have hone : t'.dec = t.dec ∧ t'.decPort.request = t.decPort.request ∧ t'.decPort.sent = t.decPort.sent ∧
      t.decPort.commands <+: t'.decPort.commands := by
    obtain hdec | ⟨hd, hq⟩ := step_dec_effect hstep
    · exact DecEffect_waiting hdec (h.dec ▸ hs) (h.request ▸ hr) h.noReply h.noReset
    · exact ⟨hd, by rw [hq], by rw [hq], by rw [hq]⟩
  obtain ⟨hd, hreq, hsent, hcommands⟩ := hone
  exact ⟨hd.trans h.dec, hreq.trans h.request, hsent.trans h.sent, h.commands.trans hcommands, hleft h.noReply,
    hleft h.noReset⟩

/-- Settles O55: a waiting unit stays as it is in every step, and the moves to come only become fewer. -/
theorem onlyTheReplyOrResetEndsCipher : Obligations.OnlyTheReplyOrResetEndsCipher := by
  constructor
  · intro s t moves k n r hs hr hreply hrst hrun
    have h := run_keeps (encWaits_step hs hr)
      (s := { s with schedule := moves }) ⟨rfl, rfl, rfl, ⟨[], List.append_nil _⟩, hreply, hrst⟩ hrun
    exact ⟨h.enc, h.sent, h.commands⟩
  · intro s t moves k n r hs hr hreply hrst hrun
    have h := run_keeps (decWaits_step hs hr)
      (s := { s with schedule := moves }) ⟨rfl, rfl, rfl, ⟨[], List.append_nil _⟩, hreply, hrst⟩ hrun
    exact ⟨h.dec, h.sent, h.commands⟩

end Sys2Proof.Machine
end

section
/-! The decode loop (43_frame_decoder R87, R95) as a relation: what a whole `DECODE` from `SCAN` comes to, by what the detector
and the adapter answer. The loop with enough fuel computes it, and it has one value. -/

namespace Sys2Proof.Machine

/-- The loop from `d` comes to `w`. -/
inductive Loops (p : Params) : DecoderState → Whole DecoderState → Prop where
  /-- The detector waits. -/
  | rested {d : DecoderState} (hd : detect d = .wait) : Loops p d ⟨{ d with state := .ready }, [], .ok⟩
  /-- The detector finds malformed bytes. -/
  | malformed {d : DecoderState} (hd : detect d = .malformed) :
      Loops p d ⟨{ d with inflight := .none, fault := .framing, state := .halted }, [], .eFraming⟩
  /-- The adapter refuses the frame. -/
  | refused {d : DecoderState} {n : Nat} (hd : detect d = .frame n)
      (ha : adapterAnswer p (d.request (parse d (d.pending.take n))) = none) :
      Loops p d
        ⟨{ d with pending := d.pending.drop n, inflight := .none, fault := .auth, state := .halted }, [], .eAuth⟩
  /-- The adapter opens the frame, and the loop goes on behind it. -/
  | opened {d : DecoderState} {n : Nat} {plaintext : Bytes} {w : Whole DecoderState} (hd : detect d = .frame n)
      (ha : adapterAnswer p (d.request (parse d (d.pending.take n))) = some plaintext)
      (hw : Loops p { d with pending := d.pending.drop n, inflight := .none } w) :
      Loops p d ⟨w.state, (plaintext ++ (parse d (d.pending.take n)).aad) :: w.out, w.response⟩

/-- The detector and the adapter answer one thing, so the loop comes to one thing. -/
theorem Loops.unique {p : Params} {d : DecoderState} {w w' : Whole DecoderState} (h : Loops p d w) (h' : Loops p d w') :
    w = w' := by
  induction h generalizing w' with
  | rested hd | malformed hd => cases h' <;> simp_all
  | refused hd ha => cases h' <;> simp_all
  | opened hd ha _ ih =>
    cases h' with
    | rested hd' | malformed hd' => cases hd.symm.trans hd'
    | refused hd' ha' =>
      cases hd.symm.trans hd'
      cases ha.symm.trans ha'
    | opened hd' ha' hw' =>
      cases hd.symm.trans hd'
      cases ha.symm.trans ha'
      rw [ih hw']

/-- A valid configuration has no frame of no bytes: the tag has at least one. -/
theorem DecoderState.Configured.least_pos {d : DecoderState} (h : d.Configured) : 0 < d.H + d.W + d.TB + d.A := by
  obtain ⟨-, -, htag, -⟩ := h
  have : 0 < d.TB := Nat.div_pos htag (by decide)
  omega

theorem least_pos_of_prefixed {d : DecoderState} (h : d.LP = true) : 0 < d.H + d.W + d.TB + d.A := by
  simp only [DecoderState.H, h, if_true]
  omega

/-- The loop of the pseudocode computes the relation: each frame takes at least a byte, so the fuel lasts. -/
theorem loops_decodeLoop (p : Params) {fuel : Nat} {d : DecoderState} (hpos : 0 < d.H + d.W + d.TB + d.A)
    (hfuel : d.pending.length < fuel) : Loops p d (decodeLoop p fuel d) := by
  induction fuel generalizing d with
  | zero => cases hfuel
  | succ fuel ih =>
    unfold decodeLoop
    split
    · exact .rested ‹_›
    · exact .malformed ‹_›
    · next n hd =>
      obtain ⟨havailable, hlong, -⟩ := detect_frame hd
      simp only [slice_zero, slice_to_end]
      split
      · exact .refused hd ‹_›
      · refine .opened hd ‹_› (ih hpos ?_)
        simp only [List.length_drop]
        omega

theorem exists_loops (p : Params) {d : DecoderState} (hpos : 0 < d.H + d.W + d.TB + d.A) : ∃ w, Loops p d w :=
  ⟨_, loops_decodeLoop p hpos (Nat.lt_succ_self _)⟩

/-- The whole of `DECODE`, when the chunk fits, is the loop over what is then pending. -/
theorem loops_decodeWhole {p : Params} {d : DecoderState} {chunk : Bytes} (hpos : 0 < d.H + d.W + d.TB + d.A)
    (hfits : p.pendingCap.allows (d.pending.length + chunk.length) = true) :
    Loops p { d with pending := d.pending ++ chunk, state := .scan } (decodeWhole p d chunk) := by
  rw [decodeWhole, if_pos hfits]
  exact loops_decodeLoop p hpos (by simp)

theorem Loops.decodeWhole_eq {p : Params} {d : DecoderState} {chunk : Bytes} {w : Whole DecoderState}
    (hcap : p.pendingCap = none) (hpos : 0 < d.H + d.W + d.TB + d.A)
    (h : Loops p { d with pending := d.pending ++ chunk, state := .scan } w) : decodeWhole p d chunk = w :=
  (loops_decodeWhole hpos ((allows_iff_none_or_le _ _).2 (.inl hcap))).unique h

/-! ### What the loop keeps, and where it ends -/

theorem Loops.LP {p : Params} {d : DecoderState} {w : Whole DecoderState} (h : Loops p d w) :
    w.state.LP = d.LP := by
  induction h with
  | rested | malformed | refused => rfl
  | opened _ _ _ ih => exact ih

theorem Loops.inflight_none {p : Params} {d : DecoderState} {w : Whole DecoderState} (h : Loops p d w)
    (hd : d.inflight = .none) : w.state.inflight = .none := by
  induction h with
  | rested => exact hd
  | malformed | refused => rfl
  | opened _ _ _ ih => exact ih rfl

/-- The loop ends at rest, with the detector waiting, or halted. -/
theorem Loops.ends {p : Params} {d : DecoderState} {w : Whole DecoderState} (h : Loops p d w) :
    w.state.state = .ready ∧ detect w.state = .wait ∨ w.state.state = .halted := by
  induction h with
  | rested hd => exact .inl ⟨rfl, hd⟩
  | malformed | refused => exact .inr rfl
  | opened _ _ _ ih => exact ih

/-- Every chunk emitted took at least the smallest frame's bytes of `pending`. -/
theorem Loops.bound {p : Params} {d : DecoderState} {w : Whole DecoderState} (h : Loops p d w) :
    w.out.length * (d.H + d.W + d.TB + d.A) + w.state.pending.length ≤ d.pending.length := by
  induction h with
  | rested | malformed => simp
  | refused => simp
  | @opened d n _ w hd _ _ ih =>
    obtain ⟨havailable, hlong, -⟩ := detect_frame hd
    have hrest : w.out.length * (d.H + d.W + d.TB + d.A) + w.state.pending.length ≤ (d.pending.drop n).length := ih
    rw [List.length_drop] at hrest
    change (w.out.length + 1) * (d.H + d.W + d.TB + d.A) + w.state.pending.length ≤ d.pending.length
    rw [Nat.succ_mul]
    omega

/-- Settles O33: any sufficient fuel computes the relation. -/
theorem decodeLoopEnds : Obligations.DecodeLoopEnds := by
  intro p d fuel hconf hfuel
  have hloops := loops_decodeLoop p hconf.least_pos hfuel
  refine ⟨hloops.unique (loops_decodeLoop p hconf.least_pos (Nat.lt_succ_self _)), hloops.bound, ?_⟩
  obtain ⟨hstate, -⟩ | hstate := hloops.ends <;> simp [hstate]

/-! ### Bytes that come later (43_frame_decoder R97 (b)) -/

/-- A frame found in prefixed mode is found whatever bytes follow. -/
theorem detect_frame_append {d : DecoderState} {n : Nat} (hlp : d.LP = true) (hd : detect d = .frame n) (b : Bytes) :
    detect { d with pending := d.pending ++ b } = .frame n := by
  obtain ⟨hn, hheader, hleast, havailable⟩ := ((detect_prefixed_iff hlp rfl).2.2 n).1 hd
  have hslice : slice (d.pending ++ b) 0 4 = slice d.pending 0 4 := by
    rw [slice_zero, slice_zero, List.take_append_of_le_length hheader]
  refine ((detect_prefixed_iff (d := { d with pending := d.pending ++ b }) hlp (congrArg be32Dec hslice)).2.2 n).2
    ⟨hn, ?_, hleast, ?_⟩ <;> simp only [List.length_append] <;> omega

/-- Malformed bytes in prefixed mode are malformed whatever bytes follow. -/
theorem detect_malformed_append {d : DecoderState} (hlp : d.LP = true) (hd : detect d = .malformed) (b : Bytes) :
    detect { d with pending := d.pending ++ b } = .malformed := by
  obtain ⟨hheader, hleast⟩ := (detect_prefixed_iff hlp rfl).2.1.1 hd
  have hslice : slice (d.pending ++ b) 0 4 = slice d.pending 0 4 := by
    rw [slice_zero, slice_zero, List.take_append_of_le_length hheader]
  refine ((detect_prefixed_iff (d := { d with pending := d.pending ++ b }) hlp (congrArg be32Dec hslice)).2.1).2
    ⟨?_, hleast⟩
  simp only [List.length_append]
  omega

/-- A loop that halts in prefixed mode does so whatever bytes follow, and keeps them. -/
theorem Loops.halted_append {p : Params} {d : DecoderState} {w : Whole DecoderState} (h : Loops p d w)
    (hlp : d.LP = true) (hhalted : w.state.state = .halted) (b : Bytes) :
    Loops p { d with pending := d.pending ++ b }
      ⟨{ w.state with pending := w.state.pending ++ b }, w.out, w.response⟩ := by
  induction h with
  | rested => cases hhalted
  | malformed hd => exact .malformed (detect_malformed_append hlp hd b)
  | @refused d n hd ha =>
    obtain ⟨havailable, -⟩ := detect_frame hd
    rw [← List.take_append_of_le_length (l₂ := b) havailable] at ha
    rw [← List.drop_append_of_le_length (l₂ := b) havailable]
    exact .refused (detect_frame_append hlp hd b) ha
  | @opened d n plaintext w hd ha _ ih =>
    obtain ⟨havailable, -⟩ := detect_frame hd
    have hrest := ih hlp hhalted
    simp only [← List.drop_append_of_le_length (l₂ := b) havailable] at hrest
    rw [← List.take_append_of_le_length (l₂ := b) havailable] at ha ⊢
    exact .opened (detect_frame_append hlp hd b) ha hrest

/-- A loop that comes to rest in prefixed mode goes on, when bytes follow, from where it rested. -/
theorem Loops.rested_append {p : Params} {d : DecoderState} {w w' : Whole DecoderState} (h : Loops p d w)
    (hlp : d.LP = true) (hready : w.state.state = .ready) {b : Bytes}
    (h' : Loops p { w.state with pending := w.state.pending ++ b, state := d.state } w') :
    Loops p { d with pending := d.pending ++ b } ⟨w'.state, w.out ++ w'.out, w'.response⟩ := by
  induction h with
  | rested => exact h'
  | malformed | refused => cases hready
  | @opened d n plaintext w hd ha _ ih =>
    obtain ⟨havailable, -⟩ := detect_frame hd
    have hrest := ih hlp hready h'
    simp only [← List.drop_append_of_le_length (l₂ := b) havailable] at hrest
    rw [← List.take_append_of_le_length (l₂ := b) havailable] at ha ⊢
    exact .opened (detect_frame_append hlp hd b) ha hrest

/-- A decoder at rest in prefixed mode. -/
structure DecoderState.AtRest (d : DecoderState) : Prop where
  LP : d.LP = true
  state : d.state = .ready
  inflight : d.inflight = .none
  waits : detect d = .wait

theorem feed_halted (p : Params) {d : DecoderState} (h : d.state = .halted) (cut : List Bytes) : feed p d cut = (d, []) := by
  induction cut with
  | nil => rfl
  | cons chunk more ih => simp only [feed, h, ih]

theorem feed_ready (p : Params) {d : DecoderState} (h : d.state = .ready) (chunk : Bytes) (more : List Bytes) :
    feed p d (chunk :: more) =
      ((feed p (decodeWhole p d chunk).state more).1,
        (decodeWhole p d chunk).out ++ (feed p (decodeWhole p d chunk).state more).2) := by
  simp only [feed, h]

/-- Feeding chunks one by one gives the chunks, the fault and the phase of one loop over all the bytes, and the same decoder if
that loop comes to rest. -/
theorem feed_eq_loop {p : Params} (hcap : p.pendingCap = none) {d : DecoderState} (hrest : d.AtRest) (cut : List Bytes)
    {w : Whole DecoderState} (hw : Loops p { d with pending := d.pending ++ cut.flatten, state := .scan } w) :
    (feed p d cut).2 = w.out ∧ (feed p d cut).1.fault = w.state.fault ∧ (feed p d cut).1.state = w.state.state ∧
      (w.state.state = .ready → (feed p d cut).1 = w.state) := by
  induction cut generalizing d w with
  | nil =>
    have hidle : Loops p { d with pending := d.pending ++ [].flatten, state := .scan } ⟨d, [], .ok⟩ := by
      have := Loops.rested (p := p) (d := { d with state := .scan }) hrest.waits
      simpa [← hrest.state] using this
    obtain rfl := hw.unique hidle
    exact ⟨rfl, rfl, rfl, fun _ => rfl⟩
  | cons chunk more ih =>
    have hpos := least_pos_of_prefixed hrest.LP
    have hfirst : Loops p { d with pending := d.pending ++ chunk, state := .scan } (decodeWhole p d chunk) :=
      loops_decodeWhole hpos ((allows_iff_none_or_le _ _).2 (.inl hcap))
    rw [feed_ready p hrest.state, List.flatten_cons, ← List.append_assoc] at *
    generalize decodeWhole p d chunk = w₁ at hfirst
    obtain ⟨hready, hwaits⟩ | hhalted := hfirst.ends
    · have hlp : w₁.state.LP = true := hfirst.LP.trans hrest.LP
      have hrest₁ : w₁.state.AtRest := ⟨hlp, hready, hfirst.inflight_none hrest.inflight, hwaits⟩
      obtain ⟨w₂, hnext⟩ := exists_loops p
        (d := { w₁.state with pending := w₁.state.pending ++ more.flatten, state := .scan }) (least_pos_of_prefixed hlp)
      obtain rfl := hw.unique (hfirst.rested_append hrest.LP hready hnext)
      obtain ⟨hout, hfault, hstate, hsame⟩ := ih hrest₁ hnext
      exact ⟨congrArg _ hout, hfault, hstate, hsame⟩
    · obtain rfl := hw.unique (hfirst.halted_append hrest.LP hhalted more.flatten)
      rw [feed_halted p hhalted]
      exact ⟨List.append_nil _, rfl, rfl, fun hr => by cases hhalted.symm.trans hr⟩

/-- Settles O34: both cuts give what one loop over all the bytes gives. -/
theorem fragmentationInvariance : Obligations.FragmentationInvariance := by
  intro p d cut cut' hcap _ hlp hready hinflight hnone hcut
  have hrest : d.AtRest := by
    refine ⟨hlp, hready, hinflight, (detect_prefixed_iff hlp rfl).1.2 ?_⟩
    exact hnone.imp_right And.right
  obtain ⟨w, hloop⟩ := exists_loops p (d := { d with pending := d.pending ++ cut.flatten, state := .scan })
    (least_pos_of_prefixed hlp)
  obtain ⟨hout, hfault, hstate, hsame⟩ := feed_eq_loop hcap hrest cut hloop
  obtain ⟨hout', hfault', hstate', hsame'⟩ := feed_eq_loop hcap hrest cut' (hcut ▸ hloop)
  refine ⟨hout.trans hout'.symm, hfault.trans hfault'.symm, hstate.trans hstate'.symm, ?_⟩
  intro hr
  have hr' := hstate.symm.trans hr
  rw [hsame hr', hsame' hr']

end Sys2Proof.Machine
end

section
/-! What ENC emits a matching DEC opens (43_frame_decoder R97 (a), R98), and how the loop ends on a failed frame (R99 (h)) and on a
truncated one (44_config R104). -/

namespace Sys2Proof.Machine

/-- What the one-piece `ENCODE` did when it answers `OK` with a frame. -/
theorem encodeWhole_framed {p : Params} {drawn P F : Bytes} {e e' : EncoderState}
    (h : encodeWhole p drawn e P = ⟨e', [F], .ok⟩) :
    ∃ ctTag, p.encrypt P e.key e.currentNonce e.aad e.T = some ctTag ∧ assemble e ctTag = some F ∧
      e' = { e with
        currentNonce := if e.EXT then e.currentNonce else drawn, inflight := .none, state := .ready } := by
  unfold encodeWhole at h
  split at h
  · cases h
  · split at h
    · cases h
    · next ctTag henc =>
      split at h
      · cases h
      · next hframe =>
        cases h
        exact ⟨ctTag, henc, hframe, rfl⟩

/-- A matching decoder parses a frame into the parts it was assembled of. -/
theorem parse_assembled {e : EncoderState} {d : DecoderState} {ctTag F : Bytes} {n : Nat} (hm : Matches e d)
    (hnonce : e.currentNonce.length = e.N) (hct : ctTag.length = n + e.T / 8) (hF : assemble e ctTag = some F) :
    F.length = d.H + d.W + n + d.TB + d.A ∧ parse d F = ⟨e.currentNonce, ctTag, e.aad⟩ := by
  obtain ⟨-, hN, hT, hA, hLP, hNIF, hEXT, hpinned⟩ := hm
  have hH : d.H = if e.LP then 4 else 0 := by rw [DecoderState.H, hLP]
  have hW : d.W = if e.NIF then e.N else 0 := by rw [DecoderState.W, hNIF, hN]
  obtain ⟨hlen, -, hwire, hctF, haad, -⟩ := frameLayouts e ctTag F n hnonce hct hF
  rw [← hH, ← hW] at hlen hctF
  rw [← hH, ← hW] at hwire
  have hnonceF : (parse d F).nonce = e.currentNonce := by
    cases hnif : e.NIF with
    | true =>
      have hWN : d.W = d.N := by rw [hW, hnif, hN]; rfl
      rw [parse_nonce_onWire F (by rw [hEXT, hnif]; rfl), ← hWN, hwire, hnif]
      rfl
    | false =>
      have hext : d.EXT = true := by rw [hEXT, hnif]; rfl
      rw [parse_nonce_pinned F hext, hpinned hext]
  refine ⟨by rw [hlen, DecoderState.TB, hT, hA]; rfl, ?_⟩
  rw [← show d.A = e.aad.length from hA] at hctF haad
  rw [← hnonceF, ← hctF, ← haad]
  rfl

/-- In prefixed mode a frame that states its own length is found before whatever follows it. -/
theorem detect_stated {d : DecoderState} {F rest : Bytes} (hlp : d.LP = true) (hleast : d.lmin ≤ F.length)
    (hfield : be32Dec (slice F 0 4) = F.length) (hp : d.pending = F ++ rest) : detect d = .frame F.length := by
  have hheader : 4 ≤ F.length := by
    simp only [DecoderState.lmin] at hleast
    omega
  have hslice : be32Dec (slice d.pending 0 4) = F.length := by
    rw [hp, slice_zero, List.take_append_of_le_length hheader, ← slice_zero, hfield]
  refine ((detect_prefixed_iff hlp hslice).2.2 _).2 ⟨rfl, ?_, hleast, ?_⟩ <;> rw [hp, List.length_append] <;> omega

theorem detect_empty {d : DecoderState} (hp : d.pending = []) : detect d = .wait := by
  simp [detect, hp]

/-- A matching decoder finds the assembled frame at the head of what is pending; in unprefixed mode it must be all of it. -/
theorem detect_assembled {e : EncoderState} {d : DecoderState} {ctTag F rest : Bytes} {n : Nat} (hm : Matches e d)
    (hnonce : e.currentNonce.length = e.N) (hT : 8 ≤ e.T) (hct : ctTag.length = n + e.T / 8)
    (hF : assemble e ctTag = some F) (hrest : d.LP = false → rest = []) (hp : d.pending = F ++ rest) :
    detect d = .frame F.length := by
  obtain ⟨hlen, -⟩ := parse_assembled hm hnonce hct hF
  obtain ⟨-, -, hT', -, hLP, -⟩ := hm
  cases hlp : d.LP with
  | true =>
    refine detect_stated hlp ?_ (assemble_lengthField (hLP ▸ hlp) hF).2 hp
    simp only [DecoderState.H, hlp, if_true] at hlen
    simp only [DecoderState.lmin]
    omega
  | false =>
    rw [hrest hlp, List.append_nil] at hp
    have htag : 0 < d.TB := Nat.div_pos (hT' ▸ hT) (by decide)
    exact ((detect_unprefixed_iff hlp).2.2 _).2
      ⟨by rw [hp], List.ne_nil_of_length_pos (by rw [hp]; omega), by rw [hp]; omega⟩

/-- The loop opens a frame that a matching encoder emitted, and goes on behind it. -/
theorem Loops.of_emitted {p : Params} {e e' : EncoderState} {d : DecoderState} {drawn P F rest : Bytes}
    {w : Whole DecoderState} (hlen : AeadLen p) (hround : AeadRoundtrip p) (hm : Matches e d)
    (hnonce : e.currentNonce.length = e.N) (hT : 8 ≤ e.T) (hF : encodeWhole p drawn e P = ⟨e', [F], .ok⟩)
    (hrest : d.LP = false → rest = []) (hp : d.pending = F ++ rest)
    (hw : Loops p { d with pending := rest, inflight := .none } w) :
    Loops p d ⟨w.state, (P ++ e.aad) :: w.out, w.response⟩ := by
  obtain ⟨ctTag, henc, hframe, -⟩ := encodeWhole_framed hF
  have hct := hlen.1 _ _ _ _ _ _ henc
  obtain ⟨-, hparse⟩ := parse_assembled hm hnonce hct hframe
  have htake : parse d (d.pending.take F.length) = ⟨e.currentNonce, ctTag, e.aad⟩ := by
    rw [hp, List.take_left, hparse]
  have hdrop : d.pending.drop F.length = rest := by rw [hp, List.drop_left]
  have ha : adapterAnswer p (d.request (parse d (d.pending.take F.length))) = some P := by
    obtain ⟨hkey, -, hT', -⟩ := hm
    rw [htake]
    refine Eq.trans ?_ (hround _ _ _ _ _ _ henc)
    rw [← hkey, ← hT']
    rfl
  have hopened := Loops.opened (detect_assembled hm hnonce hT hct hframe hrest hp) ha (hdrop ▸ hw)
  rwa [htake] at hopened

/-- The next encoder after an emitted frame matches the same decoder: its nonce is pinned, or on the wire. -/
theorem Matches.next {e e' : EncoderState} {d : DecoderState} {nonce : Bytes} (hm : Matches e d)
    (hpair : legalNoncePair .enc e.NIF e.EXT = true)
    (he : e' = { e with
      currentNonce := if e.EXT then e.currentNonce else nonce, inflight := .none, state := .ready }) : Matches e' d := by
  subst he
  obtain ⟨hkey, hN, hT, hA, hLP, hNIF, hEXT, hpinned⟩ := hm
  refine ⟨hkey, hN, hT, hA, hLP, hNIF, hEXT, fun hext => ?_⟩
  have hext' : e.EXT = true := by simp_all [legalNoncePair]
  rw [hpinned hext]
  exact (if_pos hext').symm

/-- Settles O35: the loop opens the frame and then has nothing left. -/
theorem roundTrip : Obligations.RoundTrip := by
  intro p e e' d drawn P F hlen hround hcap he hd hm hready hinflight hpending hF
  obtain ⟨-, -, hT, -, -, hnonce, -⟩ := he
  refine Loops.decodeWhole_eq hcap hd.least_pos ?_
  have hloop := Loops.of_emitted (d := { d with pending := d.pending ++ F, state := .scan }) (rest := []) hlen hround hm
    hnonce hT hF (fun _ => rfl) (by simp [hpending]) (.rested (detect_empty rfl))
  have hagain : ({ d with pending := [], state := .ready, inflight := .none } : DecoderState) = d := by
    rw [← hready, ← hinflight, ← hpending]
  exact hagain ▸ hloop

/-- Settles O36: the loop opens the first frame, then the second, and rests on fewer bytes than a length field. -/
theorem batchedFramesAllDecode : Obligations.BatchedFramesAllDecode := by
  intro p e e' e'' d drawn drawn' P P' F F' tail hlen hround hcap he hdrawn hd hm hlp hready hinflight hpending htail hF hF'
  obtain ⟨-, -, hT, -, hpair, hnonce, -⟩ := he
  obtain ⟨-, -, -, he'⟩ := encodeWhole_framed hF
  have hm' : Matches e' d := hm.next hpair he'
  have hnonce' : e'.currentNonce.length = e'.N := by
    rw [he']
    cases hext : e.EXT with
    | true => exact hnonce
    | false => exact hdrawn
  have hlpd : d.LP = true := by
    obtain ⟨-, -, -, -, hLP, -⟩ := hm
    exact hLP.trans hlp
  have hprefixed : d.LP = false → ∀ rest : Bytes, rest = [] := by simp [hlpd]
  refine Loops.decodeWhole_eq hcap hd.least_pos ?_
  have htailLoop : Loops p { d with pending := tail, state := .scan, inflight := .none }
      ⟨{ d with pending := tail, state := .ready, inflight := .none }, [], .ok⟩ :=
    .rested ((detect_prefixed_iff (d := { d with pending := tail, state := .scan, inflight := .none }) hlpd rfl).1.2
      (.inl htail))
  have hsecond := Loops.of_emitted (d := { d with pending := F' ++ tail, state := .scan, inflight := .none }) hlen hround
    hm' hnonce' (by rw [he']; exact hT) hF' (fun h => hprefixed h _) rfl htailLoop
  have hfirst := Loops.of_emitted (d := { d with pending := d.pending ++ (F ++ F' ++ tail), state := .scan }) hlen hround
    hm hnonce hT hF (fun h => hprefixed h _) (by simp [hpending]) hsecond
  have haad : e'.aad = e.aad := by rw [he']
  have hagain : ({ d with pending := tail, state := .ready, inflight := .none } : DecoderState) =
      { d with pending := tail } := by rw [← hready, ← hinflight]
  rwa [haad, hagain] at hfirst

/-- Settles O37: the loop takes the frame off, and the adapter refuses it. -/
theorem nothingAfterAFailedFrame : Obligations.NothingAfterAFailedFrame := by
  intro p d F after hcap hlp hpending hleast hfield hrefused
  refine Loops.decodeWhole_eq hcap (least_pos_of_prefixed hlp) ?_
  have hp : d.pending ++ (F ++ after) = F ++ after := by rw [hpending, List.nil_append]
  have hd := detect_stated (d := { d with pending := d.pending ++ (F ++ after), state := .scan }) hlp hleast hfield hp
  have ha : adapterAnswer p (d.request (parse d ((d.pending ++ (F ++ after)).take F.length))) = none := by
    rw [hp, List.take_left]
    exact hrefused
  have hloop := Loops.refused hd ha
  have hdrop : (d.pending ++ (F ++ after)).drop F.length = after := by rw [hp, List.drop_left]
  rwa [hdrop] at hloop

/-- A strict beginning of a frame of legal length keeps the detector waiting. -/
theorem detect_truncated {d : DecoderState} {F : Bytes} {n : Nat} (hlp : d.LP = true) (hleast : d.lmin ≤ F.length)
    (hfield : be32Dec (slice F 0 4) = F.length) (hn : n < F.length) (hp : d.pending = F.take n) : detect d = .wait := by
  have hlen : d.pending.length = n := by rw [hp, List.length_take_of_le hn.le]
  by_cases hheader : n < 4
  · exact (detect_prefixed_iff hlp rfl).1.2 (.inl (hlen ▸ hheader))
  · have hslice : be32Dec (slice d.pending 0 4) = F.length := by
      rw [hp, slice_zero, List.take_take, Nat.min_eq_left (Nat.not_lt.1 hheader), ← slice_zero, hfield]
    exact (detect_prefixed_iff hlp hslice).1.2 (.inr ⟨hleast, hlen ▸ hn⟩)

/-- Settles O44: the detector waits, and `END` finds what is buffered. -/
theorem truncationIsSurfaced : Obligations.TruncationIsSurfaced := by
  intro p d F n hcap _ hlp hready hinflight hpending hleast hfield hpos hn
  constructor
  · refine Loops.decodeWhole_eq hcap (least_pos_of_prefixed hlp) ?_
    rw [hpending, List.nil_append]
    have hloop := Loops.rested (p := p)
      (detect_truncated (d := { d with pending := F.take n, state := .scan }) hlp hleast hfield hn rfl)
    rwa [← hready] at hloop
  · intro s hs
    have hstate : s.dec.state = .ready := by rw [hs]; exact hready
    have hleft : s.dec.pending ≠ [] := by
      rw [hs]
      exact List.ne_nil_of_length_pos (by rw [List.length_take_of_le hn.le]; exact hpos)
    exact congrArg Host.Outcome.next
      ((decEnd_ready hstate).trans ((decEndRun_left hleft).trans (raiseFatal_dec .trunc s)))

end Sys2Proof.Machine
end

section
/-! `ENCODE` and `DECODE` as runs of the machine (42_frame_encoder R78, 43_frame_decoder R87): the steps refine the commands as one
piece. -/

namespace Sys2Proof.Machine

theorem step_cons {s : State} {m : Move} {rest : List Move} (hs : s.schedule = m :: rest) :
    step s = moveWith Config.params exec m { s with schedule := rest } :=
  stepWith_cons _ _ _ _ _ hs

/-! ### The SCAN step and the failed reply of DEC -/

theorem step_scan {s : State} {rest : List Move} (hs : s.schedule = .unit .dec :: rest) (hscan : s.dec.state = .scan) :
    step s = .next (decScan { s with schedule := rest }) := by
  rw [step_cons hs]
  simp only [moveWith, unitMove, hscan]

/-- Settles O29: the SCAN step is the detector's answer, and a frame is taken, parsed and requested. -/
theorem scanStep : Obligations.ScanStep := by
  intro s rest hs hscan
  rw [step_scan hs hscan]
  refine ⟨fun hd => ?_, fun hd => ?_, fun n hd => ?_⟩
  · simp only [decScan, hd, respond_dec_unit]
  · simp only [decScan, hd, raiseFatal_dec]
    rfl
  · simp only [decScan, hd, decExtract, accTake_eq, issueRequest_dec_unit]
    rfl

/-- Settles O32: the reply step on failure, after the request is cleared. -/
theorem decryptFailureHaltsTheDecoder : Obligations.DecryptFailureHaltsTheDecoder := by
  intro p s rest k r hmove hcipher hrequest hop hanswer
  rw [stepUnder_dec_reply hmove hcipher hrequest hop hanswer]
  rfl

/-! ### Runs by a given list of moves -/

/-- From `s` the moves, one after another, lead to `t`. -/
def Runs (s : State) (moves : List Move) (t : State) : Prop :=
  Host.Core.run core moves.length { s with schedule := moves } = .next t

theorem Runs.nil (s : State) : Runs s [] { s with schedule := [] } := rfl

theorem Runs.cons {s s' t : State} {m : Move} {moves : List Move}
    (hstep : step { s with schedule := m :: moves } = .next { s' with schedule := moves }) (h : Runs s' moves t) :
    Runs s (m :: moves) t :=
  (run_succ_of_step hstep).trans h

/-! ### DECODE -/

/-- The moves of DEC and of its adapter. -/
def ofDec (m : Move) : Prop :=
  m = .unit .dec ∨ ∃ k, m = .reply .dec k

/-- `t` is what `s` becomes as its decoder completes a whole command, with nothing left to move; the ports' requests and
counters apart. -/
structure DecCompletes (s : State) (w : Whole DecoderState) (t : State) : Prop where
  dec : t.dec = w.state
  sent : t.decPort.sent = s.decPort.sent ++ w.out.map .chunk ++ [.response w.response]
  commands : t.decPort.commands = s.decPort.commands
  reads : t.decPort.reads = s.decPort.reads
  encSide : t.encSide = s.encSide
  schedule : t.schedule = []

/-- A frame taken off (43_frame_decoder R90 to R92), whole. -/
theorem decExtract_eq (n : Nat) (s : State) :
    decExtract n s = { s with
      dec := { s.dec with
        pending := s.dec.pending.drop n, state := .cipher
        inflight := .decReq (parse s.dec (s.dec.pending.take n)).aad }
      decPort := { s.decPort with
        request := some (s.decPort.tickets, s.dec.request (parse s.dec (s.dec.pending.take n)))
        tickets := s.decPort.tickets + 1 } } := by
  simp only [decExtract, accTake_eq, issueRequest_dec_unit]

theorem step_extract {s : State} {n : Nat} (moves : List Move) (hscan : s.dec.state = .scan)
    (hd : detect s.dec = .frame n) :
    step { s with schedule := .unit .dec :: moves } = .next { decExtract n s with schedule := moves } := by
  rw [step_scan (s := { s with schedule := .unit .dec :: moves }) rfl hscan]
  simp only [decScan, hd, decExtract_eq]

theorem step_rest {s : State} (moves : List Move) (hscan : s.dec.state = .scan) (hd : detect s.dec = .wait) :
    step { s with schedule := .unit .dec :: moves } =
      .next { respond .dec .ok { s with dec := { s.dec with state := .ready } } with schedule := moves } :=
  (scanStep { s with schedule := .unit .dec :: moves } moves rfl hscan).1 hd

theorem step_malformed {s : State} (moves : List Move) (hscan : s.dec.state = .scan) (hd : detect s.dec = .malformed) :
    step { s with schedule := .unit .dec :: moves } = .next { raiseFatal .dec .framing s with schedule := moves } :=
  (scanStep { s with schedule := .unit .dec :: moves } moves rfl hscan).2.1 hd

/-- The adapter refuses the extracted frame. -/
theorem step_refuse {s : State} {n : Nat} (moves : List Move)
    (ha : adapterAnswer Config.params (s.dec.request (parse s.dec (s.dec.pending.take n))) = none) :
    step { decExtract n s with schedule := .reply .dec s.decPort.tickets :: moves } =
      .next { raiseFatal .dec .auth (clearRequest .dec (decExtract n s)) with schedule := moves } := by
  rw [decExtract_eq, step_eq_stepUnder]
  exact decryptFailureHaltsTheDecoder Config.params _ moves _ _ rfl rfl rfl rfl ha

/-- The adapter opens the extracted frame. -/
theorem step_open {s : State} {n : Nat} {plaintext : Bytes} (moves : List Move)
    (ha : adapterAnswer Config.params (s.dec.request (parse s.dec (s.dec.pending.take n))) = some plaintext) :
    step { decExtract n s with schedule := .reply .dec s.decPort.tickets :: moves } =
      .next { decReply (some plaintext) (clearRequest .dec (decExtract n s)) with schedule := moves } := by
  rw [decExtract_eq, step_eq_stepUnder, stepUnder_dec_reply rfl rfl rfl rfl ha]
  rfl

/-- The run of a decoder in `SCAN` comes to what the loop comes to, by its own moves and its adapter's. -/
theorem Loops.run {d : DecoderState} {w : Whole DecoderState} (h : Loops Config.params d w) {s : State} (hs : s.dec = d)
    (hscan : d.state = .scan) :
    ∃ (t : State) (moves : List Move), (∀ m ∈ moves, ofDec m) ∧ Runs s moves t ∧ DecCompletes s w t := by
  induction h generalizing s with
  | rested hd =>
    subst hs
    refine ⟨_, [.unit .dec], by simp [ofDec], .cons (step_rest _ hscan hd) (.nil _), rfl, ?_, rfl, rfl, rfl, rfl⟩
    simp
  | malformed hd =>
    subst hs
    refine ⟨_, [.unit .dec], by simp [ofDec], .cons (step_malformed _ hscan hd) (.nil _), rfl, ?_, rfl, rfl, rfl, rfl⟩
    simp [FatalError.fault, FaultCode.response]
  | @refused d n hd ha =>
    subst hs
    refine ⟨_, [.unit .dec, .reply .dec s.decPort.tickets], by simp [ofDec],
      .cons (step_extract _ hscan hd) (.cons (step_refuse _ ha) (.nil _)), ?_, ?_, ?_, ?_, ?_, rfl⟩ <;>
    simp [decExtract_eq, FatalError.fault, FaultCode.response]
  | @opened d n plaintext w hd ha hw ih =>
    subst hs
    obtain ⟨t, moves, hmoves, hruns, ht⟩ := ih (s := decReply (some plaintext) (clearRequest .dec (decExtract n s)))
      (by simp [decReply, decExtract_eq, hscan]) hscan
    refine ⟨t, .unit .dec :: .reply .dec s.decPort.tickets :: moves, ?_,
      .cons (step_extract _ hscan hd) (.cons (step_open _ ha) hruns), ht.dec, ?_, ?_, ?_, ?_, ht.schedule⟩
    · simpa [ofDec] using hmoves
    · rw [ht.sent]
      simp [decReply, decExtract_eq, DecInflight.aad]
    · rw [ht.commands]
      simp [decReply, decExtract_eq]
    · rw [ht.reads]
      simp [decReply, decExtract_eq]
    · rw [ht.encSide]
      simp [decReply, decExtract_eq]

theorem exec_decDecode_ready {s : State} (chunk : Bytes) (hready : s.dec.state = .ready) :
    exec (.decDecode chunk) s = .next (decAccept Config.params chunk s) :=
  congrArg Host.Outcome.next (decDecode_ready _ chunk hready)

/-- Settles O28: a chunk that fits is appended and the loop run; one that does not halts the decoder at once. -/
theorem decodeRunsToItsResponse : Obligations.DecodeRunsToItsResponse := by
  intro s chunk hi hready
  rw [exec_decDecode_ready chunk hready]
  by_cases hfits : Config.params.pendingCap.allows (s.dec.pending.length + chunk.length) = true
  · have hconf : s.dec.Configured := hi.dec.configured (by simp [hready])
    obtain ⟨t, moves, hmoves, hruns, ht⟩ := (loops_decodeWhole hconf.least_pos hfits).run
      (s := { s with dec := { s.dec with pending := s.dec.pending ++ chunk, state := .scan } }) rfl rfl
    rw [decAccept_fits hfits]
    exact ⟨_, t, moves, rfl, hmoves, hruns, ht.dec, ht.sent, ht.commands, ht.reads, ht.encSide, ht.schedule⟩
  · rw [decAccept_overflows hfits, decodeWhole, if_neg hfits]
    refine ⟨_, _, [], rfl, by simp, rfl, rfl, ?_, rfl, rfl, rfl, rfl⟩
    simp [FatalError.fault, FaultCode.response]

/-! ### ENCODE -/

theorem exec_encEncode_ready {s : State} (chunk : Bytes) (hready : s.enc.state = .ready) :
    exec (.encEncode chunk) s = .next (encIssue chunk s) :=
  congrArg Host.Outcome.next (encEncode_ready hready)

/-- Settles O19: the size check refuses with the fatal entry sequence, or the request is made. -/
theorem encodeIssueStep : Obligations.EncodeIssueStep := by
  intro s chunk hready
  refine (exec_encEncode_ready chunk hready).trans (congrArg Host.Outcome.next ?_)
  by_cases hlong : s.enc.LP = true ∧ lmax < s.enc.frameLength chunk
  · exact (encIssue_tooLong hlong).trans (if_pos hlong).symm
  · exact (encIssue_fits hlong).trans (if_neg hlong).symm

/-- `t` is what `s` becomes as its encoder completes a whole command; the port's request and tickets apart. -/
structure EncCompletes (s : State) (w : Whole EncoderState) (t : State) : Prop where
  enc : t.enc = w.state
  sent : t.encPort.sent = s.encPort.sent ++ w.out.map .chunk ++ [.response w.response]
  draws : t.draws = if w.response = .ok ∧ s.enc.EXT = false then s.draws + 1 else s.draws
  commands : t.encPort.commands = s.encPort.commands
  reads : t.encPort.reads = s.encPort.reads
  dec : t.dec = s.dec
  decPort : t.decPort = s.decPort

theorem encodeWhole_tooLong (p : Params) (drawn : Bytes) {e : EncoderState} {chunk : Bytes}
    (h : e.LP = true ∧ lmax < e.frameLength chunk) :
    encodeWhole p drawn e chunk = ⟨{ e with inflight := .none, fault := .framing, state := .halted }, [], .eFraming⟩ :=
  if_pos h

/-- The reply to an issued `ENCODE` completes it as the pseudocode says. -/
theorem encReply_completes (p : Params) {s : State} {chunk : Bytes}
    (hfits : ¬(s.enc.LP = true ∧ lmax < s.enc.frameLength chunk)) :
    EncCompletes s (encodeWhole p (drawnBytes p s.enc.N s) s.enc chunk)
      (encReply p (p.encrypt chunk s.enc.key s.enc.currentNonce s.enc.aad s.enc.T)
        (clearRequest .enc { encIssue chunk s with schedule := [] })) := by
  rw [encIssue_fits hfits]
  cases henc : p.encrypt chunk s.enc.key s.enc.currentNonce s.enc.aad s.enc.T with
  | none =>
    have hw : encodeWhole p (drawnBytes p s.enc.N s) s.enc chunk =
        ⟨{ s.enc with inflight := .none, state := .ready }, [], .eCipher⟩ :=
      (if_neg hfits).trans (by simp only [henc])
    rw [hw]
    constructor <;> simp [encReply, encFinish]
  | some ctTag =>
    cases hframe : assemble s.enc ctTag with
    | none =>
      have hw : encodeWhole p (drawnBytes p s.enc.N s) s.enc chunk =
          ⟨{ s.enc with inflight := .none, fault := .framing, state := .halted }, [], .eFraming⟩ :=
        (if_neg hfits).trans (by simp only [henc, hframe])
      rw [hw, encReply_unframed p (by exact hframe)]
      constructor <;> simp [FatalError.fault, FaultCode.response]
    | some F =>
      have hw : encodeWhole p (drawnBytes p s.enc.N s) s.enc chunk =
          ⟨{ s.enc with
              currentNonce := if s.enc.EXT then s.enc.currentNonce else drawnBytes p s.enc.N s
              inflight := .none
              state := .ready }, [F], .ok⟩ :=
        (if_neg hfits).trans (by simp only [henc, hframe])
      rw [hw, encReply_framed p (F := F) (by exact hframe), rotate_eq]
      cases hext : s.enc.EXT <;> constructor <;> simp [encFinish, hext, drawnBytes]

/-- Settles O20: the size check halts the encoder at once, or the adapter's reply completes the command. -/
theorem encodeRunsToItsResponse : Obligations.EncodeRunsToItsResponse := by
  intro s chunk hready _
  rw [exec_encEncode_ready chunk hready]
  by_cases hlong : s.enc.LP = true ∧ lmax < s.enc.frameLength chunk
  · rw [encIssue_tooLong hlong, encodeWhole_tooLong _ _ hlong]
    refine ⟨_, _, [], rfl, rfl, rfl, rfl, ?_, rfl, rfl, rfl, rfl, rfl⟩
    simp [FatalError.fault, FaultCode.response]
  · have hcipher : (encIssue chunk s).enc.state = .cipher := by rw [encIssue_fits hlong]
    have hrequest : (encIssue chunk s).encPort.request = some (s.encPort.tickets, s.enc.request chunk) := by
      rw [encIssue_fits hlong]
    have hstep : step { encIssue chunk s with schedule := [.reply .enc s.encPort.tickets] } =
        .next (encReply Config.params
          (Config.params.encrypt chunk s.enc.key s.enc.currentNonce s.enc.aad s.enc.T)
          (clearRequest .enc { encIssue chunk s with schedule := [] })) := by
      rw [step_eq_stepUnder]
      exact stepUnder_enc_reply (s := { encIssue chunk s with schedule := [.reply .enc s.encPort.tickets] }) rfl hcipher
        hrequest rfl rfl
    obtain ⟨henc, hsent, hdraws, hcommands, hreads, hdec, hdecPort⟩ := encReply_completes Config.params hlong
    exact ⟨_, _, [.reply .enc s.encPort.tickets], rfl, (if_pos hcipher).symm, run_succ_of_step hstep, henc, hsent, hdraws,
      hcommands, hreads, hdec, hdecPort⟩

end Sys2Proof.Machine
end

section
/-! The register view (10_state R15 to R25). -/

namespace Sys2Proof.Machine

/-- The fields of `STATUS` (10_state R16), one above another. -/
theorem statusWord_toNat (state : BitVec 4) (fault : FaultCode) (busy : Bool) :
    (statusWord state fault busy).toNat = state.toNat + 16 * fault.code.toNat + 256 * busy.toNat := by
  cases fault <;> cases busy <;> revert state <;> decide

theorem cfgFlagsWord_toNat (LP NIF EXT : Bool) :
    (cfgFlagsWord LP NIF EXT).toNat = LP.toNat + 2 * NIF.toNat + 4 * EXT.toNat := by
  revert LP NIF EXT
  decide

theorem statusWord_fields (state : BitVec 4) (fault : FaultCode) (busy : Bool) :
    (statusWord state fault busy).extractLsb' 0 4 = state ∧ (statusWord state fault busy).extractLsb' 4 4 = fault.code ∧
    (statusWord state fault busy).getLsbD 8 = busy := by
  cases fault <;> cases busy <;> revert state <;> decide

/-- Bits 31:9 of `STATUS` read as 0: its fields make less than 2^9. -/
theorem statusWord_reserved (state : BitVec 4) (fault : FaultCode) (busy : Bool) {i : Nat} (hi : 9 ≤ i) :
    (statusWord state fault busy).getLsbD i = false := by
  have hlt : (statusWord state fault busy).toNat < 2 ^ 9 := by
    have := busy.toNat_le
    rw [statusWord_toNat]
    omega
  exact Nat.testBit_lt_two_pow (hlt.trans_le (Nat.pow_le_pow_right (by decide) hi))

theorem busy_enc_iff (s : State) : s.busy .enc = true ↔ s.enc.state = .cipher := by
  cases hphase : s.enc.state <;> simp [State.busy, EncPhase.busy, hphase]

theorem busy_dec_iff (s : State) : s.busy .dec = true ↔ s.dec.state = .scan ∨ s.dec.state = .cipher := by
  cases hphase : s.dec.state <;> simp [State.busy, DecPhase.busy, hphase]

/-- Settles O1: the fields of the word, and the invariants on the fault. -/
theorem statusRegisterFields : Obligations.StatusRegisterFields := by
  constructor
  · intro s u
    cases u with
    | enc =>
      obtain ⟨hstate, hfault, hbusy⟩ := statusWord_fields s.enc.state.code s.enc.fault s.enc.state.busy
      have hword : BitVec.ofNat 32 (s.rd .enc 0) = statusWord s.enc.state.code s.enc.fault s.enc.state.busy :=
        (BitVec.ofNat_toNat _ _).trans (BitVec.setWidth_eq _)
      refine ⟨BitVec.isLt _, ?_⟩
      rw [hword]
      exact ⟨hstate, hfault, (Bool.eq_iff_iff.1 hbusy).trans (busy_enc_iff s), fun i => statusWord_reserved _ _ _⟩
    | dec =>
      obtain ⟨hstate, hfault, hbusy⟩ := statusWord_fields s.dec.state.code s.dec.fault s.dec.state.busy
      have hword : BitVec.ofNat 32 (s.rd .dec 0) = statusWord s.dec.state.code s.dec.fault s.dec.state.busy :=
        (BitVec.ofNat_toNat _ _).trans (BitVec.setWidth_eq _)
      refine ⟨BitVec.isLt _, ?_⟩
      rw [hword]
      exact ⟨hstate, hfault, (Bool.eq_iff_iff.1 hbusy).trans (busy_dec_iff s), fun i => statusWord_reserved _ _ _⟩
  · intro cap s hi
    exact ⟨hi.enc.fault, hi.dec.fault⟩

/-- Settles O2: the words as numbers, the reset table of both units, and a read's step. -/
theorem registerReads : Obligations.RegisterReads := by
  refine ⟨fun s => ?table, fun u => ?reset, fun s i rest => ?encRead, fun s i rest => ?decRead⟩
  case table =>
    refine ⟨statusWord_toNat _ _ _, cfgFlagsWord_toNat _ _ _, rfl, rfl, rfl, rfl, statusWord_toNat _ _ _,
      cfgFlagsWord_toNat _ _ _, rfl, rfl, rfl, rfl, ?_⟩
    intro u i hi
    obtain ⟨j, rfl⟩ : ∃ j, i = j + 6 := ⟨i - 6, by omega⟩
    cases u <;> rfl
  case reset =>
    cases u with
    | enc => exact encRead_resetWith _
    | dec => exact decRead_resetWith _
  case encRead | decRead =>
    rw [step_cons rfl]
    rfl

/-- Settles O3: each register is computed from fields that the two states share, or from a length. -/
theorem secretsAreUnreadable : Obligations.SecretsAreUnreadable := by
  intro s u i key key' nonce nonce' aad pending haad hpending
  cases u with
  | enc =>
    match i with
    | 4 => exact haad
    | 0 | 1 | 2 | 3 | _ + 5 => rfl
  | dec =>
    match i with
    | 5 => exact hpending
    | 0 | 1 | 2 | 3 | 4 | _ + 6 => rfl

end Sys2Proof.Machine
end

section
/-! Each command in each phase (44_config R100 to R107), and the moves that bring a command to a unit. -/

namespace Sys2Proof.Machine

/-- Settles O13: each transaction is decoded by computation. -/
theorem writtenCommandsDecode : Obligations.WrittenCommandsDecode := ⟨rfl, rfl, rfl, rfl, rfl, rfl⟩

/-- Settles O26: the capacity check passes. -/
theorem decodeAppendsTheChunk : Obligations.DecodeAppendsTheChunk := by
  intro s chunk hready hfits
  exact (exec_decDecode_ready chunk hready).trans
    (congrArg Host.Outcome.next (decAccept_fits ((allows_iff _ _).2 hfits)))

theorem encConfig_accepted (p : Params) {key : Key} {payload : Bytes} {s : State} (hoff : s.enc.state = .off)
    (hpasses : firstFailure .enc key payload = none) :
    encConfig p key payload s = respond .enc .ok (loadEnc p key (readRecord .enc payload) s) := by
  simp only [encConfig, hoff, encConfigRun, hpasses]

theorem decConfig_accepted (p : Params) {key : Key} {payload : Bytes} {s : State} (hoff : s.dec.state = .off)
    (hpasses : firstFailure .dec key payload = none) :
    decConfig p key payload s = respond .dec .ok (loadDec p key (readRecord .dec payload) s) := by
  simp only [decConfig, hoff, decConfigRun, hpasses]

/-- Settles O39: what the record loads, then the response. -/
theorem encConfigLoadsTheRecord : Obligations.EncConfigLoadsTheRecord := by
  intro s key payload hoff hpasses
  exact congrArg Host.Outcome.next (encConfig_accepted Config.params hoff hpasses)

/-- Settles O40: the nonce is the record's, or the free value the load takes. -/
theorem decConfigLoadsTheRecord : Obligations.DecConfigLoadsTheRecord := by
  intro s key payload hoff hpasses c
  have hrun : exec (.decConfig key payload) s = .next (respond .dec .ok (loadDec Config.params key c s)) :=
    congrArg Host.Outcome.next (decConfig_accepted Config.params hoff hpasses)
  obtain ⟨-, -, -, -, -, -, hlen⟩ := accepted_record hpasses
  cases hext : c.EXT with
  | true =>
    refine ⟨c.extNonce, (readRecord_extNonce_length hlen).trans (if_pos hext), fun _ => rfl, hrun.trans ?_⟩
    simp [loadDec, hext, DecoderState.accReset]
  | false =>
    refine ⟨unspecifiedBytes Config.params .dec c.N s, unspecifiedBytes_length _ _ _ _, by simp, hrun.trans ?_⟩
    simp [loadDec, hext, DecoderState.accReset]

/-- Settles O42: a failed `CONFIG` resets its unit and answers. -/
theorem failedConfigConsumesNothing : Obligations.FailedConfigConsumesNothing := by
  constructor
  · intro s key payload hoff hfails
    exact ⟨_, congrArg Host.Outcome.next ((encConfig_failed Config.params hoff hfails).trans (configFailed_enc _ _)),
      rfl, rfl, rfl, rfl⟩
  · intro s key payload hoff hfails
    exact ⟨_, congrArg Host.Outcome.next ((decConfig_failed Config.params hoff hfails).trans (configFailed_dec _ _)),
      rfl, rfl, rfl⟩

/-- Settles O43: the two outcomes of `END` in `READY`. -/
theorem endOfInput : Obligations.EndOfInput := by
  intro s hready
  constructor
  · intro hempty
    exact congrArg Host.Outcome.next ((decEnd_ready hready).trans (decEndRun_clean hempty))
  · intro hleft
    exact congrArg Host.Outcome.next ((decEnd_ready hready).trans (decEndRun_left hleft))

/-- Settles O45: `CLOSE` in a stable phase resets its unit and answers. -/
theorem closeDestroysTheInstance : Obligations.CloseDestroysTheInstance := by
  constructor
  · intro s hcipher
    exact ⟨_, congrArg Host.Outcome.next (encClose_stable Config.params ((stable_enc_iff s).2 hcipher)),
      rfl, rfl, rfl, rfl, rfl, rfl, rfl, rfl, rfl⟩
  · intro s hscan hcipher
    exact ⟨_, congrArg Host.Outcome.next (decClose_stable Config.params ((stable_dec_iff s).2 ⟨hscan, hcipher⟩)),
      rfl, rfl, rfl, rfl, rfl, rfl, rfl, rfl⟩

/-- The entries of ENC's phase table that reject (44_config R107). -/
theorem exec_enc_rejected {i : Instr} {s : State} (hu : i.unit = .enc) (hclose : i ≠ .encClose)
    (h : s.enc.state = .off ∧ (∀ k b, i ≠ .encConfig k b) ∨ s.enc.state = .ready ∧ (∀ b, i ≠ .encEncode b)) :
    exec i s = .next (reject .enc s) := by
  cases i with
  | decConfig | decDecode | decEnd | decClose => cases hu
  | encClose => exact absurd rfl hclose
  | encConfig key payload =>
    obtain ⟨-, hno⟩ | ⟨hready, -⟩ := h
    · exact absurd rfl (hno key payload)
    · exact congrArg Host.Outcome.next (by simp only [encConfig, hready])
  | encEncode chunk =>
    obtain ⟨hoff, -⟩ | ⟨-, hno⟩ := h
    · exact congrArg Host.Outcome.next (by simp only [encEncode, hoff])
    · exact absurd rfl (hno chunk)

/-- The entries of DEC's phase table that reject (44_config R107). -/
theorem exec_dec_rejected {i : Instr} {s : State} (hu : i.unit = .dec) (hclose : i ≠ .decClose)
    (h : s.dec.state = .off ∧ (∀ k b, i ≠ .decConfig k b) ∨ s.dec.state = .ready ∧ (∃ k b, i = .decConfig k b) ∨
      s.dec.state = .ended) :
    exec i s = .next (reject .dec s) := by
  cases i with
  | encConfig | encEncode | encClose => cases hu
  | decClose => exact absurd rfl hclose
  | decConfig key payload =>
    obtain ⟨-, hno⟩ | ⟨hready, -⟩ | hended := h
    · exact absurd rfl (hno key payload)
    · exact congrArg Host.Outcome.next (by simp only [decConfig, hready])
    · exact congrArg Host.Outcome.next (by simp only [decConfig, hended])
  | decDecode chunk =>
    obtain ⟨hoff, -⟩ | ⟨-, _, _, hi⟩ | hended := h
    · exact congrArg Host.Outcome.next (by simp only [decDecode, hoff])
    · cases hi
    · exact congrArg Host.Outcome.next (by simp only [decDecode, hended])
  | decEnd =>
    obtain ⟨hoff, -⟩ | ⟨-, _, _, hi⟩ | hended := h
    · exact congrArg Host.Outcome.next (by simp only [decEnd, hoff])
    · cases hi
    · exact congrArg Host.Outcome.next (by simp only [decEnd, hended])

/-- A halted ENC answers every command but `CLOSE` with the latched code (44_config R109). -/
theorem exec_enc_halted {i : Instr} {s : State} (hu : i.unit = .enc) (hclose : i ≠ .encClose)
    (h : s.enc.state = .halted) : exec i s = .next (respondLatched .enc s) := by
  cases i with
  | decConfig | decDecode | decEnd | decClose => cases hu
  | encClose => exact absurd rfl hclose
  | encConfig => exact congrArg Host.Outcome.next (by simp only [encConfig, h])
  | encEncode => exact congrArg Host.Outcome.next (by simp only [encEncode, h])

/-- A halted DEC answers every command but `CLOSE` with the latched code (44_config R109). -/
theorem exec_dec_halted {i : Instr} {s : State} (hu : i.unit = .dec) (hclose : i ≠ .decClose)
    (h : s.dec.state = .halted) : exec i s = .next (respondLatched .dec s) := by
  cases i with
  | encConfig | encEncode | encClose => cases hu
  | decClose => exact absurd rfl hclose
  | decConfig => exact congrArg Host.Outcome.next (by simp only [decConfig, h])
  | decDecode => exact congrArg Host.Outcome.next (by simp only [decDecode, h])
  | decEnd => exact congrArg Host.Outcome.next (by simp only [decEnd, h])

/-- Settles O46: the rejecting entries of both tables, and the column `HALTED`. -/
theorem commandsOutOfPhase : Obligations.CommandsOutOfPhase :=
  ⟨fun _ _ hu hclose => ⟨exec_enc_rejected hu hclose, exec_enc_halted hu hclose⟩,
    fun _ _ hu hclose => ⟨exec_dec_rejected hu hclose, exec_dec_halted hu hclose⟩⟩

/-- A busy unit leaves every command at its port (44_config R107). -/
theorem exec_busy {i : Instr} {s : State} (h : s.busy i.unit = true) : exec i s = .next (holdAtPort i s) := by
  cases i with
  | encConfig => exact congrArg Host.Outcome.next (by simp only [encConfig, (busy_enc_iff s).1 h])
  | encEncode => exact congrArg Host.Outcome.next (by simp only [encEncode, (busy_enc_iff s).1 h])
  | encClose => exact congrArg Host.Outcome.next (by simp only [encClose, (busy_enc_iff s).1 h])
  | decConfig => obtain hs | hs := (busy_dec_iff s).1 h <;> exact congrArg Host.Outcome.next (by simp only [decConfig, hs])
  | decDecode => obtain hs | hs := (busy_dec_iff s).1 h <;> exact congrArg Host.Outcome.next (by simp only [decDecode, hs])
  | decEnd => obtain hs | hs := (busy_dec_iff s).1 h <;> exact congrArg Host.Outcome.next (by simp only [decEnd, hs])
  | decClose => obtain hs | hs := (busy_dec_iff s).1 h <;> exact congrArg Host.Outcome.next (by simp only [decClose, hs])

/-- Settles O47: the command is put first in the queue of its unit's port. -/
theorem busyPortHoldsTheCommand : Obligations.BusyPortHoldsTheCommand := by
  intro i s hbusy
  rw [exec_busy hbusy, holdAtPort]
  cases i.unit <;> rfl

/-- Settles O53: `RST` writes the reset state and clears the request, so a reply finds none. -/
theorem resetInput : Obligations.ResetInput := by
  constructor
  · intro s rest hs
    exact ⟨_, step_rst hs, rfl, rfl, rfl, rfl, rfl, rfl, fun k more => step_reply_ignored more nofun⟩
  · intro s rest hs
    exact ⟨_, step_rst hs, rfl, rfl, rfl, rfl, rfl, rfl, fun k more => step_reply_ignored more nofun⟩

/-- Settles O56: the move itself. -/
theorem offeredCommandsWait : Obligations.OfferedCommandsWait :=
  ⟨fun _ _ _ hs => step_cons hs, fun _ _ _ hs => step_cons hs⟩

/-- A well-formed command leaves the port and is run. -/
theorem acceptCommand_known {p : Params} (run : Instr → State → Host.Outcome State Fault Refusal) {u : UnitId} {s : State}
    {c : Command} {waiting : List Command} {i : Instr} (hc : (s.port u).commands = c :: waiting)
    (hd : decode u c = .ok i) (hwf : i.wellFormed p.maxChunk = true) :
    acceptCommand p run u s = run i (s.setPort u { s.port u with commands := waiting }) := by
  simp only [acceptCommand, hc, hd, hwf, if_true]

/-- Settles O57: in a stable phase the unit takes the command and runs it. -/
theorem stepRunsTheDecodedCommand : Obligations.StepRunsTheDecodedCommand := by
  constructor
  · intro s rest c waiting i hs hstable hc hd hwf
    rw [step_unit_stable hs hstable]
    exact acceptCommand_known _ hc hd hwf
  · intro s rest c waiting i hs hstable hc hd hwf
    rw [step_unit_stable hs hstable]
    exact acceptCommand_known _ hc hd hwf

/-- A command the port cannot carry has a chunk over a finite `MAX_CHUNK`. -/
theorem not_wellFormed {cap : Capacity} {i : Instr} (h : i.wellFormed cap = false) :
    ∃ chunk most, cap = some most ∧ most < chunk.length ∧ (i = .encEncode chunk ∨ i = .decDecode chunk) := by
  cases i with
  | encConfig | decConfig | decEnd | encClose | decClose => cases h
  | encEncode chunk =>
    obtain ⟨most, hcap, hlt⟩ := (not_allows_iff_lt cap chunk.length).1 (Bool.eq_false_iff.1 h)
    exact ⟨chunk, most, hcap, hlt, .inl rfl⟩
  | decDecode chunk =>
    obtain ⟨most, hcap, hlt⟩ := (not_allows_iff_lt cap chunk.length).1 (Bool.eq_false_iff.1 h)
    exact ⟨chunk, most, hcap, hlt, .inr rfl⟩

/-- A busy unit's own move never stops. -/
theorem unitMove_busy (p : Params) (run : Instr → State → Host.Outcome State Fault Refusal) {u : UnitId} {s : State}
    (h : s.busy u = true) : ∃ t, unitMove p run u s = .next t := by
  cases u with
  | enc => exact ⟨s, by simp only [unitMove, (busy_enc_iff s).1 h]⟩
  | dec =>
    obtain hs | hs := (busy_dec_iff s).1 h
    · exact ⟨decScan s, by simp only [unitMove, hs]⟩
    · exact ⟨s, by simp only [unitMove, hs]⟩

/-- Settles O58: only taking a command can stop, and only before it is run. -/
theorem onlyOversizeChunksStop : Obligations.OnlyOversizeChunksStop := by
  intro p s
  cases hs : s.schedule with
  | nil => exact .inl ⟨s, stepWith_nil _ _ _ hs⟩
  | cons m rest =>
    rw [stepUnder_cons hs]
    cases m with
    | offer | rst | read | reply => exact .inl ⟨_, rfl⟩
    | unit u =>
      have hport : (State.port { s with schedule := rest } u).commands = (s.port u).commands := by cases u <;> rfl
      cases hbusy : State.busy { s with schedule := rest } u with
      | true => exact .inl (unitMove_busy p (runWith p) hbusy)
      | false =>
        rw [moveWith, unitMove_stable p (runWith p) hbusy]
        obtain ⟨-, h⟩ | ⟨c, waiting, hc, ⟨e, -, h⟩ | ⟨i, hd, ⟨-, h⟩ | ⟨hwf, h⟩⟩⟩ :=
          acceptCommand_cases p (runWith p) u { s with schedule := rest }
        · exact .inl ⟨_, h⟩
        · exact .inl ⟨_, h⟩
        · obtain ⟨t, ht⟩ := runWith_next p i _
          exact .inl ⟨t, h.trans ht⟩
        · obtain ⟨chunk, most, hcap, hlt, hi⟩ := not_wellFormed hwf
          refine .inr ⟨h, u, c, waiting, chunk, most, hport.symm.trans hc, hcap, hlt, ?_⟩
          obtain rfl | rfl := hi
          · exact .inl hd
          · exact .inr hd

/-- Settles O59: every meaning and the step are those under the parameters of Config. -/
theorem stepIsTheMachineUnderConfig : Obligations.StepIsTheMachineUnderConfig :=
  fun i s => ⟨exec_eq_runWith i s, step_eq_stepUnder s⟩

end Sys2Proof.Machine
end
